-- ==== Sys2Proof/Word.lean ====
section
/-! DEFINITION. The values the core moves (00_scope.md R7, R16; 10_state.md R24). A tape cell, an input value and an emitted
value is a `Byte`. An instruction word is a natural number, the unsigned number the spec writes it as (R16, R43): its
width WORD_BITS is a parameter of the configuration (R6, R7) and so is not in a type; `wordsFit` says that every stored
word has that width. -/

namespace Sys2Proof

/-- An 8-bit value: the content of a tape cell, an input value, an emitted value (R24, R30). Its arithmetic wraps
modulo 256. -/
abbrev Byte := BitVec 8

end Sys2Proof
end

