-- ==== Sys2Proof/Config.lean ====
section
/-! DEFINITION. The implementation parameters of 00_scope.md section 3 and their defaults. They are inputs held
constant for a whole run (10_state.md R28), so the machine carries them in its state and no step writes them. -/

namespace Sys2Proof

/-- What an Input does when the input capability is exhausted (R14): leave the cell, or store a sentinel. -/
inductive EofPolicy where
  | noWrite
  | sentinel (v : Byte)
  deriving DecidableEq, Repr, Inhabited

/-- The parameters of R6 to R12 and R14. PROG_LEN (R13) is the length of the loaded Program. -/
structure Config where
  /-- IMM_BITS (R6). -/
  immBits : Nat
  /-- IP_BITS (R12). -/
  ipBits : Nat
  /-- DP_BITS (R12). -/
  dpBits : Nat
  /-- TAPE_SIZE (R8). -/
  tapeSize : Nat
  /-- STEP_CEILING (R9); `none` is "absent" (R28: STEP_CEILING_EN = 0). -/
  stepCeiling : Option Nat
  /-- BOUNDS_CHECK (R10). -/
  boundsCheck : Bool
  /-- ASCII_OUTPUT (R11); the core never reads it. -/
  asciiOutput : Bool
  /-- EOF_POLICY (R14). -/
  eofPolicy : EofPolicy
  deriving DecidableEq, Repr

/-- OPC_BITS (R7). -/
def opcBits : Nat := 3

/-- IMM_CAP, the immediate capacity for a given IMM_BITS (R6). -/
def immCapOf (immBits : Nat) : Nat := 2 ^ immBits - 1

/-- WORD_BITS for a given IMM_BITS (R7). -/
def wordBitsOf (immBits : Nat) : Nat := opcBits + immBits

/-- The default IMM_BITS (R6), the one spec/opcode_table.json is written for. -/
def defaultImmBits : Nat := 13

/-- STEP_BITS, the width of a hardware step counter (R12, R23). The model's counter is unbounded. -/
def stepBits : Nat := 64

/-- The default step ceiling of a diagnostics configuration (R9). -/
def defaultStepCeiling : Nat := 4096

/-- IMM_CAP of a configuration (R6). -/
def Config.immCap (c : Config) : Nat := immCapOf c.immBits

/-- WORD_BITS of a configuration (R7). -/
def Config.wordBits (c : Config) : Nat := wordBitsOf c.immBits

/-- The diagnostics configuration (R10, R155): bounds checking on and a step ceiling present. -/
def Config.diagnostics (c : Config) : Bool := c.boundsCheck && c.stepCeiling.isSome

/-- FREE VALUE. EOF_POLICY is OPEN in the spec (R14, D12, U3): it names no default. The policy in `State.reset` is
this constant without a body, so no proof can lean on one of the two policies there (log 4). -/
opaque Config.openEofPolicy : EofPolicy

/-- The default configuration: the "default" column of 00_scope.md section 3, with no step ceiling and with bounds
checking on, as 95_test_vectors.md starts its runs. DESIGN CHOICE for BOUNDS_CHECK and STEP_CEILING (log 3); free for
EOF_POLICY (log 4). -/
def Config.default : Config where
  immBits := defaultImmBits
  ipBits := 32
  dpBits := 32
  tapeSize := 32768
  stepCeiling := none
  boundsCheck := true
  asciiOutput := false
  eofPolicy := Config.openEofPolicy

end Sys2Proof
end

