-- ==== Sys2Proof/Machine/State.lean ====
section
/-! DEFINITION. The state of the machine (10_state.md R20 to R32), the reasons it stops, and the state after reset.
Plain data throughout. The status values of R29 are functions of this state (Machine/Ops.lean). -/

namespace Sys2Proof.Machine

/-- The tape's contents: the cells that differ from what an unlisted cell reads as, in strictly rising order of
address (`Memory.wf`). -/
abbrev Memory := List Host.Cell

/-- The input capability as the core sees it (R30, R120, R122): the values it will still deliver, oldest first, and
whether exhaustion follows them. With no value left and not exhausted, it has not answered yet. -/
structure InputChannel where
  pending : List Byte
  exhausted : Bool
  deriving DecidableEq, Repr

/-- An answer of the input capability (R17, R30). -/
inductive InputAnswer where
  | value (v : Byte)
  | exhausted
  deriving DecidableEq, Repr

/-- The one runtime fault of the source (R140, R141), with the instruction pointer it reports (R144). It is how a run
is classified once it has halted, not a way a step ends. -/
inductive RuntimeFault where
  | outOfBoundsPointer (faultIp : Nat)
  deriving DecidableEq, Repr

/-- The exit classes of R142. -/
inductive ExitClass where
  | clean
  | forced
  | fault
  deriving DecidableEq, Repr

/-- The record of a halt: its class, and the configuration of the run that it ended (R96, D27; log 18). -/
structure HaltRecord where
  exitClass : ExitClass
  config : Config
  deriving DecidableEq, Repr

/-- The status values of R29, as the host reads them. -/
structure Status where
  halted : Bool
  /-- Valid when halted (R29). -/
  exitClass : Option ExitClass
  ip : Nat
  stepCount : Nat
  /-- Valid when the exit class is Fault (R29, R144). -/
  faultIp : Option Nat
  deriving DecidableEq, Repr

/-- The state: the three registers, the tape, the program store, the configuration, and the core's two channels. -/
structure State where
  /-- `ip`: index of the instruction about to be fetched (R21). -/
  ip : Nat
  /-- `dp`: index into the tape, below 2^DP_BITS (R22). -/
  dp : Nat
  /-- `step_count`: executed instructions, unbounded in the model (R23). -/
  stepCount : Nat
  /-- The tape (R24). -/
  tape : Memory
  /-- The program store (R25); its length is PROG_LEN (R13). -/
  program : List Nat
  /-- The configuration values (R28), constant for a run. -/
  config : Config
  /-- An input request is outstanding: an Input holds (R31, R121). -/
  inputRequest : Bool
  /-- The input capability (R30). -/
  input : InputChannel
  /-- The values emitted so far, oldest first (R30, R123). -/
  output : List Byte
  /-- The record of the halt, made when the host first acts on the halted core, so that no change of the configuration
  restarts it or changes what its run ended as, before a reset (R96, D27; log 18). -/
  haltedAs : Option HaltRecord
  deriving DecidableEq, Repr

/-- Why the machine stops with a fault. -/
inductive Fault where
  /-- R52, R150 (a), U1: a tape access with `dp >= TAPE_SIZE`, with the `ip` and `dp` of the access. Raised by the six
  instructions that access the tape, before anything is written, emitted or requested. Through `step` it is reached
  only with BOUNDS_CHECK = false. Safe: the source gives such an access no behaviour. -/
  | uncheckedTapeAccess (ip dp : Nat)
  deriving DecidableEq, Repr

/-- Why the model gives no meaning. -/
inductive Refusal where
  /-- Raised by `exec` for an instruction that has no meaning yet. No arm uses it. Safe. -/
  | notModelled (mnemonic : String)
  /-- R15, R150 (c), U6: the configuration is not legal. Raised by a reset, so by every launch, and by `step`.
  Safe. -/
  | badConfig
  /-- R70, R150 (b), U5: the Program is not well formed. Raised by a reset, so by every launch, and by CondLeft
  and CondRight when the slot they would land on does not exist, which no well-formed Program lets happen. Safe. -/
  | illFormedProgram
  deriving DecidableEq, Repr

/-- The machine right after reset (R32, R170): every cell 0, `ip = dp = step_count = 0`, no request outstanding,
nothing emitted, no halt recorded. The program store is empty until a Program is loaded (log 11); the configuration is
the default (log 3, log 4); the input capability has offered nothing (log 5). -/
def State.reset : State where
  ip := 0
  dp := 0
  stepCount := 0
  tape := []
  program := []
  config := Config.default
  inputRequest := false
  input := { pending := [], exhausted := false }
  output := []
  haltedAs := none

end Sys2Proof.Machine
end

