-- ==== Sys2Proof/Machine/Flags.lean ====
section
/-! DEFINITION. There are no flags, condition codes or predicates, and no instruction has a flag side effect (10_state.md
R27). The one condition the machine computes is the zero test of CondLeft and CondRight, made at the moment they
execute and kept nowhere. -/

namespace Sys2Proof.Machine

/-- `v = 0` on the unsigned 8-bit cell (R130, R131). -/
def cellIsZero (v : Byte) : Bool := v == 0

end Sys2Proof.Machine
end

