-- ==== Sys2Proof/Machine/Operands.lean ====
section
/-! DEFINITION. Operand assembly and the arithmetic on the two pointers (30_encoding.md R63, 42_pointer.md R110 to R112).
The only operand form is the unsigned immediate; its unit is a tape cell or an instruction slot. -/

namespace Sys2Proof.Machine

/-- `zext_N(v)`: an unsigned number taken to a register of `width` bits (R16, R63). -/
def zext (width v : Nat) : Nat := v % 2 ^ width

/-- The immediate as a distance in tape cells, zero-extended to DP_BITS (R63). -/
def cellDistance (c : Config) (imm : Nat) : Nat := zext c.dpBits imm

/-- `(dp + zext_DP_BITS(imm)) mod 2^DP_BITS` (R110, R112). -/
def pointerUp (c : Config) (dp imm : Nat) : Nat := (dp + cellDistance c imm) % 2 ^ c.dpBits

/-- `(dp - zext_DP_BITS(imm)) mod 2^DP_BITS`, the least non-negative residue (R16, R111, R112). -/
def pointerDown (c : Config) (dp imm : Nat) : Nat :=
  (dp + (2 ^ c.dpBits - cellDistance c imm)) % 2 ^ c.dpBits

end Sys2Proof.Machine
end

