-- ==== Sys2Proof/Machine/Ops.lean ====
section
/-! DEFINITION. The named operations every instruction is written over: the tape (20_memory.md R41), the run guard
(40_cycle.md R91), the unconditional advance (R94), the halt and its classification (60_exceptions.md R142 to R145),
the status values (10_state.md R29), the two channels (R30) and the bracket jumps (44_control.md). -/

namespace Sys2Proof.Machine

/-- What a step ends in. -/
abbrev Result := Host.Outcome State Fault Refusal

/-! ### The tape -/

/-- What a cell that is not listed reads as: the reset content of the tape (R24, R32, R48). -/
def Memory.blank : Byte := 0

/-- Read cell `a`. -/
def Memory.read : Memory → Nat → Byte
  | [], _ => Memory.blank
  | (b, v) :: rest, a => if a = b then v else Memory.read rest a

/-- `rest` with cell `a` in front, unless the value is what an unlisted cell reads as anyway. -/
def Memory.list (a : Nat) (v : Byte) (rest : Memory) : Memory :=
  if v = Memory.blank then rest else (a, v) :: rest

/-- Write cell `a` and no other (R41), keeping the canonical form. -/
def Memory.write : Memory → Nat → Byte → Memory
  | [], a, v => Memory.list a v []
  | (b, w) :: rest, a, v =>
    if a < b then Memory.list a v ((b, w) :: rest)
    else if a = b then Memory.list a v rest
    else (b, w) :: Memory.write rest a v

/-- Canonical from address `lo` on: addresses strictly rising, no cell listed with the unlisted value. -/
def Memory.wfFrom : Nat → Memory → Bool
  | _, [] => true
  | lo, (a, v) :: rest => decide (lo ≤ a) && v != Memory.blank && Memory.wfFrom (a + 1) rest

/-- The canonical form of the tape's contents. -/
def Memory.wf (m : Memory) : Bool := Memory.wfFrom 0 m

/-- Every listed cell exists: the tape has cells `0 .. size - 1` only (R24, R46). -/
def Memory.within (size : Nat) (m : Memory) : Bool := m.all fun cell => decide (cell.1 < size)

/-- PROG_LEN (R13). -/
def State.progLen (s : State) : Nat := s.program.length

/-- `tape[dp]` on the right of an arrow: `MemRead(dp, 1)` (R17, R41). -/
def State.cell (s : State) : Byte := s.tape.read s.dp

/-- `tape[dp] <- v`: `MemWrite(dp, 1, v)` (R17, R41). -/
def State.setCell (s : State) (v : Byte) : State := { s with tape := s.tape.write s.dp v }

/-- The gate in front of every tape access: an access with `dp >= TAPE_SIZE` is a fault before anything happens
(R52). -/
def onTape (s : State) (effect : Result) : Result :=
  if s.dp < s.config.tapeSize then effect else .fault (.uncheckedTapeAccess s.ip s.dp)

/-! ### The run guard -/

/-- The second term of the guard: no ceiling, or not yet reached (R91). -/
def State.belowCeiling (s : State) : Bool :=
  match s.config.stepCeiling with
  | none => true
  | some n => decide (s.stepCount < n)

/-- The third term of the guard: `dp < TAPE_SIZE`, if bounds checking is configured (R91). -/
def State.boundsHold (s : State) : Bool := decide (s.dp < s.config.tapeSize) || !s.config.boundsCheck

/-- The run guard (R91). -/
def State.guard (s : State) : Bool := decide (s.ip < s.progLen) && s.belowCeiling && s.boundsHold

/-! ### The advance -/

/-- `ip <- ip + 1; step_count <- step_count + 1` (R94). `ip` is not reduced modulo 2^IP_BITS: an instruction runs only
under the guard, so the new `ip` is at most PROG_LEN, which fits (R15, R21); the spec assigns no value to a wrap (U9). -/
def State.advance (s : State) : State := { s with ip := s.ip + 1, stepCount := s.stepCount + 1 }

/-- The end of every instruction that executes: the one unconditional advance (R94, C8). -/
def complete (s : State) : Result := .next s.advance

/-! ### The halt, its class and the status values -/

/-- The core goes on: no halt is recorded, and the guard holds (R91, R96). -/
def State.running (s : State) : Bool := s.haltedAs.isNone && s.guard

/-- `halted` (R29): the guard is false, or was false before the host changed what it reads (R96, D27). -/
def State.halted (s : State) : Bool := !s.running

/-- `classify` of R142, with the priority of R143: Fault, then Clean, then Forced. -/
def State.classify (s : State) : ExitClass :=
  if s.config.boundsCheck && decide (s.config.tapeSize ≤ s.dp) then .fault
  else if s.ip = s.progLen then .clean
  else .forced

/-- The class of a halted core: the recorded one, else that of the halted state (R142). -/
def State.haltClass (s : State) : ExitClass :=
  match s.haltedAs with
  | some r => r.exitClass
  | none => s.classify

/-- The configuration of the run: the recorded one if the run has halted and the host has moved since, else the current
one (R28, R174; log 18). -/
def State.runConfig (s : State) : Config :=
  match s.haltedAs with
  | some r => r.config
  | none => s.config

/-- `exit_class`, valid once halted (R29). -/
def State.exitClass (s : State) : Option ExitClass := if s.halted then some s.haltClass else none

/-- What there is to record of a halt; on a running core nothing. -/
def State.haltRecord (s : State) : Option HaltRecord :=
  if s.halted then some { exitClass := s.haltClass, config := s.runConfig } else none

/-- Record the halt, if the core has halted. -/
def State.recordHalt (s : State) : State := { s with haltedAs := s.haltRecord }

/-- The 2-bit code of an exit class (R29, R149); 3 is never produced. -/
def ExitClass.code : ExitClass → BitVec 2
  | .clean => 0
  | .forced => 1
  | .fault => 2

/-- `fault_ip = ip - 1`, valid when the class is Fault (R144). At `ip = 0` no instruction has executed and the spec
names no value; no run in a legal configuration halts so. -/
def State.faultIp (s : State) : Option Nat :=
  match s.exitClass, s.ip with
  | some .fault, n + 1 => some n
  | some .fault, 0 => none
  | some .clean, _ => none
  | some .forced, _ => none
  | none, _ => none

/-- The fault of a run that ended with class Fault: OutOfBoundsPointer, the only runtime fault (R140, R141). -/
def State.runtimeFault (s : State) : Option RuntimeFault := s.faultIp.map .outOfBoundsPointer

/-- The status values as the host reads them (R29). -/
def State.status (s : State) : Status where
  halted := s.halted
  exitClass := s.exitClass
  ip := s.ip
  stepCount := s.stepCount
  faultIp := s.faultIp

/-- TAKING THE HALT: what this machine has where another has exception entry (60_exceptions.md). Nothing is saved,
nothing is changed and control goes nowhere (R96, R145), so the halted state is its own next state for ever. Its class
and `fault_ip` are read from the status values. There is no return from it (R146): only a reset leaves it. -/
def halt (s : State) : Result := .next s

/-! ### The channels -/

/-- `InputRequest()` (R17, R120): the answer and the channel after it, or `none` while the capability has not answered
(R121). A value answer consumes exactly one value. Exhaustion is permanent (R122). -/
def InputChannel.request (ch : InputChannel) : Option (InputAnswer × InputChannel) :=
  match ch.pending with
  | v :: rest => some (.value v, { ch with pending := rest })
  | [] => if ch.exhausted then some (.exhausted, ch) else none

/-- The hold of an Input whose request is not answered: the request is outstanding and nothing else changes (R121). -/
def hold (s : State) : Result := .next { s with inputRequest := true }

/-- The request has been answered: the channel is what the request left, and no request is outstanding. -/
def State.answered (s : State) (ch : InputChannel) : State := { s with input := ch, inputRequest := false }

/-- What an answer does to the current cell: a value is stored; exhaustion follows EOF_POLICY (R120, R122). -/
def State.receive (s : State) : InputAnswer → State
  | .value v => s.setCell v
  | .exhausted =>
    match s.config.eofPolicy with
    | .noWrite => s
    | .sentinel v => s.setCell v

/-- `OutputEmit(v)` (R17, R123): the sink accepts at once. -/
def State.emit (s : State) (v : Byte) : State := { s with output := s.output ++ [v] }

/-! ### The bracket jumps -/

/-- `ip <- ip + distance`, then the advance (R130). The landing slot must exist, as it does in every well-formed
Program (R70, R132); a jump past the end is a Program the spec gives no meaning to (U5, log 9). -/
def jumpForward (s : State) (distance : Nat) : Result :=
  if s.ip + distance < s.progLen then complete { s with ip := s.ip + distance }
  else .refused .illFormedProgram

/-- `ip <- ip - distance`, then the advance (R131). A jump below slot 0 is a Program the spec gives no meaning to (U5,
log 9). -/
def jumpBack (s : State) (distance : Nat) : Result :=
  if distance ≤ s.ip then complete { s with ip := s.ip - distance }
  else .refused .illFormedProgram

end Sys2Proof.Machine
end

