-- ==== Sys2Proof/Machine/CellArith.lean ====
section
/-! DEFINITION. Cell arithmetic: IncWord and DecWord (41_cell_arith.md R100 to R102). The immediate is ignored (R66). -/

namespace Sys2Proof.Machine

/-- IncWord (R100): `tape[dp] = (tape[dp] + 1) mod 256`. -/
def execIncWord (_imm : Nat) (s : State) : Host.Outcome State Fault Refusal :=
  onTape s (complete (s.setCell (s.cell + 1)))

/-- DecWord (R101): `tape[dp] = (tape[dp] - 1) mod 256`. -/
def execDecWord (_imm : Nat) (s : State) : Host.Outcome State Fault Refusal :=
  onTape s (complete (s.setCell (s.cell - 1)))

end Sys2Proof.Machine
end

