-- ==== Sys2Proof/Machine/Control.lean ====
section
/-! DEFINITION. Control transfer: CondLeft and CondRight (44_control.md R130 to R133). -/

namespace Sys2Proof.Machine

/-- CondLeft (R130): if the current cell is zero, skip to the matching CondRight; then the advance. -/
def execCondLeft (imm : Nat) (s : State) : Host.Outcome State Fault Refusal :=
  onTape s (if cellIsZero s.cell then jumpForward s imm else complete s)

/-- CondRight (R131): if the current cell is not zero, go back to the matching CondLeft; then the advance. -/
def execCondRight (imm : Nat) (s : State) : Host.Outcome State Fault Refusal :=
  onTape s (if cellIsZero s.cell then complete s else jumpBack s imm)

end Sys2Proof.Machine
end

