-- ==== Sys2Proof/Machine/InputOutput.lean ====
section
/-! DEFINITION. Input and Output (43_io.md R120 to R123). The immediate is ignored (R66). -/

namespace Sys2Proof.Machine

/-- Input (R120): one request; the answer is stored by `receive`; without an answer the instruction holds (R121) and
has not reached the advance (R94). The bounds fault comes before the request (R120, D15). -/
def execInput (_imm : Nat) (s : State) : Host.Outcome State Fault Refusal :=
  onTape s <|
    match s.input.request with
    | some (answer, channel) => complete ((s.answered channel).receive answer)
    | none => hold s

/-- Output (R123): emit the current cell. It never holds. -/
def execOutput (_imm : Nat) (s : State) : Host.Outcome State Fault Refusal :=
  onTape s (complete (s.emit s.cell))

end Sys2Proof.Machine
end

