-- ==== Sys2Proof/Machine/Pointer.lean ====
section
/-! DEFINITION. Pointer moves: AddPtr and SubPtr (42_pointer.md R110 to R113). No bounds test and no tape access; the guard of
the next step finds a pointer off the tape. -/

namespace Sys2Proof.Machine

/-- AddPtr (R110): `dp = dp + imm`, modulo 2^DP_BITS. -/
def execAddPtr (imm : Nat) (s : State) : Host.Outcome State Fault Refusal :=
  complete { s with dp := pointerUp s.config s.dp imm }

/-- SubPtr (R111): `dp = dp - imm`, modulo 2^DP_BITS. -/
def execSubPtr (imm : Nat) (s : State) : Host.Outcome State Fault Refusal :=
  complete { s with dp := pointerDown s.config s.dp imm }

end Sys2Proof.Machine
end

