-- ==== Sys2Proof/Syntax.lean ====
section
/-! DEFINITION. The instructions: one constructor per row of spec/opcode_table.json, in the order of 30_encoding.md
R62. Decoding a word yields the pair of a mnemonic and an immediate (R64), so every constructor carries the immediate
field, also where the core ignores it (R66). -/

namespace Sys2Proof

/-- An instruction: opcode and immediate value (R61, R64; glossary "Instruction"). -/
inductive Instr where
  | incWord (imm : Nat)
  | decWord (imm : Nat)
  | addPtr (imm : Nat)
  | subPtr (imm : Nat)
  | condLeft (imm : Nat)
  | condRight (imm : Nat)
  | input (imm : Nat)
  | output (imm : Nat)
  deriving DecidableEq, Repr

/-- The immediate field of an instruction (R63). -/
def Instr.imm : Instr → Nat
  | .incWord n | .decWord n | .addPtr n | .subPtr n | .condLeft n | .condRight n | .input n | .output n => n

/-- Does the core use the immediate (R62, column "uses imm")? -/
def Instr.usesImm : Instr → Bool
  | .incWord _ => false
  | .decWord _ => false
  | .addPtr _ => true
  | .subPtr _ => true
  | .condLeft _ => true
  | .condRight _ => true
  | .input _ => false
  | .output _ => false

/-- Does the instruction access the tape (R40, R45)? AddPtr and SubPtr touch only `dp`. -/
def Instr.accessesTape : Instr → Bool
  | .incWord _ => true
  | .decWord _ => true
  | .addPtr _ => false
  | .subPtr _ => false
  | .condLeft _ => true
  | .condRight _ => true
  | .input _ => true
  | .output _ => true

/-- A pointer-move instruction (glossary): AddPtr or SubPtr. -/
def Instr.isPointerMove (i : Instr) : Bool := !i.accessesTape

/-- How an instruction counts in a bracket scan (R70, R77). -/
inductive BracketKind where
  | opens
  | closes
  | plain
  deriving DecidableEq, Repr

/-- The bracket kind of an instruction: CondLeft opens, CondRight closes (R77). -/
def Instr.bracket : Instr → BracketKind
  | .incWord _ => .plain
  | .decWord _ => .plain
  | .addPtr _ => .plain
  | .subPtr _ => .plain
  | .condLeft _ => .opens
  | .condRight _ => .closes
  | .input _ => .plain
  | .output _ => .plain

end Sys2Proof
end

