-- ==== Sys2Proof/Machine/Dispatch.lean ====
section
/-! DEFINITION. The dispatch on the opcode (40_cycle.md R93): one arm per instruction, no default arm. -/

namespace Sys2Proof.Machine

/-- R93: the effect of an instruction, its unconditional advance included (R94). -/
def exec (i : Instr) (s : State) : Host.Outcome State Fault Refusal :=
  match i with
  | .incWord imm => Sys2Proof.Machine.execIncWord imm s
  | .decWord imm => Sys2Proof.Machine.execDecWord imm s
  | .addPtr imm => Sys2Proof.Machine.execAddPtr imm s
  | .subPtr imm => Sys2Proof.Machine.execSubPtr imm s
  | .condLeft imm => Sys2Proof.Machine.execCondLeft imm s
  | .condRight imm => Sys2Proof.Machine.execCondRight imm s
  | .input imm => Sys2Proof.Machine.execInput imm s
  | .output imm => Sys2Proof.Machine.execOutput imm s

end Sys2Proof.Machine
end

