-- ==== Sys2Proof/WellFormed.lean ====
section
/-! DEFINITION. What makes a single instruction well formed (30_encoding.md R63, R64, R66). The condition on a whole
Program (R70) is in Machine/Program.lean. -/

namespace Sys2Proof

/-- An instruction is well formed at a given IMM_BITS when its immediate is in range: `0 <= imm <= IMM_CAP` (R63, the
domain of `encode` in R64). -/
def Instr.wf (immBits : Nat) (i : Instr) : Bool := decide (i.imm ≤ immCapOf immBits)

/-- Canonical: the immediate of an instruction that ignores it is 0, as the Translator writes it (R66). Every
well-formed instruction executes, canonical or not. -/
def Instr.canonical (i : Instr) : Bool := i.usesImm || i.imm == 0

end Sys2Proof
end

