-- ==== Sys2Proof/Decode.lean ====
section
/-! DEFINITION. The bytecode instruction decoder (30_encoding.md R60 to R66) and its inverse, the encoder (R64); the byte
image of a Program at the default width (20_memory.md R43, D20). -/

namespace Sys2Proof

/-- The opcode field `w[2:0]` (R61). -/
def opcField (w : Nat) : Nat := w % 2 ^ opcBits

/-- The immediate field `w[WORD_BITS-1 : OPC_BITS]`, as an unsigned number (R61, R63). -/
def immField (immBits : Nat) (w : Nat) : Nat := w / 2 ^ opcBits % 2 ^ immBits

/-- The instruction of an opcode number and an immediate (R62). Every one of the 8 values is assigned (R65). -/
def instrOf (opc imm : Nat) : Instr :=
  match opc with
  | 0 => .incWord imm
  | 1 => .decWord imm
  | 2 => .addPtr imm
  | 3 => .subPtr imm
  | 4 => .condLeft imm
  | 5 => .condRight imm
  | 6 => .input imm
  | _ => .output imm

/-- The decoder (R64). Total: every word decodes to exactly one instruction (R65). -/
def decode (immBits : Nat) (w : Nat) : Instr := instrOf (opcField w) (immField immBits w)

/-- The opcode number of an instruction (R62). -/
def Instr.opc : Instr → Nat
  | .incWord _ => 0
  | .decWord _ => 1
  | .addPtr _ => 2
  | .subPtr _ => 3
  | .condLeft _ => 4
  | .condRight _ => 5
  | .input _ => 6
  | .output _ => 7

/-- The encoder, `encode(m, n) = (n << OPC_BITS) | opc(m)` (R64). -/
def encode (i : Instr) : Nat := i.imm <<< opcBits ||| i.opc

/-- Why a byte image is refused. -/
inductive DecodeError where
  /-- Fewer bytes are left than one word has. -/
  | truncatedWord
  deriving DecidableEq, Repr

/-- The two bytes of a word at the default width, least significant first (R43, D20). -/
def wordBytes (w : Nat) : List Byte := [BitVec.ofNat 8 w, BitVec.ofNat 8 (w / 256)]

/-- Decode the first instruction of a byte image at the default width and give the bytes that are left. -/
def decodeBytes : List Byte → Except DecodeError (Instr × List Byte)
  | lo :: hi :: rest => .ok (decode defaultImmBits (hi.toNat * 256 + lo.toNat), rest)
  | [_] => .error .truncatedWord
  | [] => .error .truncatedWord

/-- The byte image of a Program at the default width (D20). -/
def programBytes (words : List Nat) : List Byte := words.flatMap wordBytes

/-- Read a Program back from its byte image, one word for every two bytes. -/
def programOfBytes : List Byte → Except DecodeError (List Nat)
  | lo :: hi :: rest => do
    let words ← programOfBytes rest
    return (hi.toNat * 256 + lo.toNat) :: words
  | [_] => .error .truncatedWord
  | [] => .ok []

/-- The instruction the decoder reads from the bits of an opcode-table row. The table's words have 16 bits, the
default WORD_BITS; a longer row or a number that does not fit is no word. -/
def decodeTableWord (nbits w : Nat) : Option Instr :=
  if nbits ≤ wordBitsOf defaultImmBits ∧ w < 2 ^ nbits then
    match decodeBytes (wordBytes w) with
    | .ok (i, _) => some i
    | .error _ => none
  else none

end Sys2Proof
end

