-- ==== Sys2Proof/Machine/Program.lean ====
section
/-! DEFINITION. The two launch premises that are checked (70_reset_and_hazards.md R180): a legal configuration
(00_scope.md R15) and a well-formed Program (30_encoding.md R70), with the bracket scan of R77 that both the
well-formedness and the Translator use. -/

namespace Sys2Proof.Machine

/-- P1, LegalConfig: the five conditions of R15 for a Program of `progLen` instructions. -/
abbrev LegalConfig (c : Config) (progLen : Nat) : Prop :=
  1 ≤ c.immBits ∧ 1 ≤ c.tapeSize ∧ c.stepCeiling ≠ some 0 ∧ progLen < 2 ^ c.ipBits ∧
    c.tapeSize + c.immCap ≤ 2 ^ c.dpBits

/-- The forward scan of R77 with its nesting counter: the position in the list of the CondRight that closes the
bracket the scan started behind. -/
def scanForMatch : (counter : Nat) → List Instr → Option Nat
  | _, [] => none
  | counter, i :: rest =>
    match i.bracket, counter with
    | .opens, n => (scanForMatch (n + 1) rest).map (· + 1)
    | .closes, n + 1 => (scanForMatch n rest).map (· + 1)
    | .closes, 0 => some 0
    | .plain, n => (scanForMatch n rest).map (· + 1)

/-- The index of the match of the CondLeft at index `i`: the scan starts at `i + 1` (R77). -/
def matchOf (code : List Instr) (i : Nat) : Option Nat :=
  (scanForMatch 0 (code.drop (i + 1))).map (· + (i + 1))

/-- R70 (a) for a CondLeft with immediate `d` at index `i`. -/
abbrev LeftMatched (code : List Instr) (i d : Nat) : Prop :=
  1 ≤ d ∧ i + d < code.length ∧ code[i + d]? = some (.condRight d) ∧ matchOf code i = some (i + d)

/-- R70 (b) for a CondRight with immediate `d` at index `j`. -/
abbrev RightMatched (code : List Instr) (j d : Nat) : Prop :=
  1 ≤ d ∧ d ≤ j ∧ code[j - d]? = some (.condLeft d) ∧ matchOf code (j - d) = some j

/-- R70 at one index. It puts no condition on the other six opcodes. -/
def wellFormedAt (code : List Instr) (k : Nat) : Bool :=
  match code[k]? with
  | some (.condLeft d) => decide (LeftMatched code k d)
  | some (.condRight d) => decide (RightMatched code k d)
  | some (.incWord _) => true
  | some (.decWord _) => true
  | some (.addPtr _) => true
  | some (.subPtr _) => true
  | some (.input _) => true
  | some (.output _) => true
  | none => true

/-- P2, WellFormedProgram (R70), as a check of every index. -/
def wellFormedProgram (code : List Instr) : Bool := (List.range code.length).all (wellFormedAt code)

/-- The other reading of R70: the bracket instructions, read in index order, form a balanced bracket string, and each
carries the distance in slots to its partner. `stack` holds the index and the immediate of every bracket still open,
innermost first; `index` is the index of the first instruction of the list. -/
def bracketsBalance : (index : Nat) → (stack : List (Nat × Nat)) → List Instr → Bool
  | _, [], [] => true
  | _, _ :: _, [] => false
  | index, stack, i :: rest =>
    match i.bracket, stack with
    | .opens, open_ => bracketsBalance (index + 1) ((index, i.imm) :: open_) rest
    | .closes, (left, distance) :: open_ =>
      decide (i.imm = distance) && decide (left + distance = index) && bracketsBalance (index + 1) open_ rest
    | .closes, [] => false
    | .plain, open_ => bracketsBalance (index + 1) open_ rest

/-- The Program in a program store: every word decoded (R25, R64). -/
def codeOf (c : Config) (words : List Nat) : List Instr := words.map (decode c.immBits)

/-- Every stored word has WORD_BITS bits (R25). -/
def wordsFit (c : Config) (words : List Nat) : Bool := words.all fun w => decide (w < 2 ^ c.wordBits)

end Sys2Proof.Machine
end

