-- ==== Sys2Proof/Machine/Cycle.lean ====
section
/-! DEFINITION. The execution cycle (40_cycle.md R90 to R96): guard, fetch, decode, execute; the outcome of a step as R18
names it; and placing a word where the next fetch reads. -/

namespace Sys2Proof.Machine

/-- `Fetch(ip)` (R42, R92); `none` at and past the end of the Program. -/
def State.fetch (s : State) : Option Nat := s.program[s.ip]?

/-- The instruction this step executes: none on a halted core (R90, R91, R96), else the decoded word at `ip`. -/
def State.current (s : State) : Option Instr :=
  if s.running then s.fetch.map (decode s.config.immBits) else none

/-- A step has a meaning: the configuration is legal (R15, U6, log 10), or the core has halted before the host set it. -/
abbrev State.Meaningful (s : State) : Prop := s.haltedAs.isSome = true ∨ LegalConfig s.config s.progLen

/-- One pass of the loop (R90). -/
def cycle (s : State) : Result :=
  if s.Meaningful then
    match s.current with
    | some i => exec i s
    | none => halt s
  else .refused .badConfig

/-- The outcomes of a step as R18 lists them, with the model's refusals. -/
inductive StepKind where
  | executes
  | halts (exit : ExitClass)
  | holds
  | faults (f : Fault)
  | refuses (r : Refusal)
  deriving DecidableEq, Repr

/-- Which outcome of R18 a step from this state has. In `cycle` a halt and a hold are both next states. -/
def State.stepKind (s : State) : StepKind :=
  if s.Meaningful then
    match s.current with
    | none => .halts s.haltClass
    | some i =>
      match exec i s with
      | .next t => if t.inputRequest then .holds else .executes
      | .fault f => .faults f
      | .refused r => .refuses r
  else .refuses .badConfig

/-- `words` with `w` at `index`, filled up with IncWord words if it is shorter. -/
def putWord (words : List Nat) (index : Nat) (w : Nat) : List Nat :=
  words.take index ++ List.replicate (index - words.length) (encode (.incWord 0)) ++
    w :: words.drop (index + 1)

/-- A CondLeft needs the slot it skips to: if the store ends before it, fill up and close with the matching CondRight
(R70). -/
def closeBracket (words : List Nat) (index : Nat) (i : Instr) : List Nat :=
  match i.bracket with
  | .opens =>
    if words.length ≤ index + i.imm then
      words ++ List.replicate (index + i.imm - words.length) (encode (.incWord 0)) ++
        [encode (.condRight i.imm)]
    else words
  | .closes => words
  | .plain => words

/-- The program store with `w` where the next fetch reads, and the bracket partner a CondLeft there needs (log 11). -/
def placeWord (s : State) (w : Nat) : State :=
  { s with program := closeBracket (putWord s.program s.ip w) s.ip (decode s.config.immBits w) }

end Sys2Proof.Machine
end

