-- ==== Sys2Proof/Machine/Step.lean ====
section
/-! DEFINITION. The step (00_scope.md R19, 40_cycle.md R90), and where a word is placed so that the next step runs it. -/

namespace Sys2Proof.Machine

/-- One step of the core. -/
def step (s : State) : Host.Outcome State Fault Refusal := cycle s

/-- `s` with the word `w` of `nbits` bits stored where `step` fetches its next instruction: the program store at
`ip` (log 11). -/
def State.withFetchWord (s : State) (nbits w : Nat) : State := placeWord s (w % 2 ^ nbits)

end Sys2Proof.Machine
end

