-- ==== Sys2Proof/Machine/Sink.lean ====
section
/-! DEFINITION. The rendering of the emitted values by the output sink (43_io.md R124): the environment's, not the core's.
The byte values of digits, space and letters are those of ASCII (93_implementation_defined.md GK1, GK3). -/

namespace Sys2Proof.Machine

/-- The byte of a decimal digit. -/
def digitByte (d : Nat) : Byte := BitVec.ofNat 8 (48 + d)

/-- The decimal value of a number below 1000 in the fewest digits (R124, D14). -/
def decimalBytes (n : Nat) : List Byte :=
  if n < 10 then [digitByte n]
  else if n < 100 then [digitByte (n / 10), digitByte (n % 10)]
  else [digitByte (n / 100), digitByte (n / 10 % 10), digitByte (n % 10)]

/-- The separator of numeric mode: one space (R124). -/
def separatorByte : Byte := 0x20

/-- What the sink writes for the emitted values: the raw bytes if ASCII_OUTPUT, else each decimal value followed by the
separator (R124). -/
def render (asciiOutput : Bool) (values : List Byte) : List Byte :=
  if asciiOutput then values
  else values.flatMap fun v => decimalBytes v.toNat ++ [separatorByte]

/-- What the environment has seen of the output of a run in this state, in the output mode of that run (R124, R179). -/
def State.rendered (s : State) : List Byte := render s.runConfig.asciiOutput s.output

/-- The last line the surrounding software prints after a run in the diagnostics configuration, without a line end (R124,
R152). There is none before the run has halted; a diagnostics run ends in no other way (R10, R52). -/
def State.countLine (s : State) : Option String :=
  if s.halted && s.runConfig.diagnostics then some ("instructions executed: " ++ toString s.stepCount) else none

end Sys2Proof.Machine
end

