-- ==== Sys2Proof/Machine/Translator.lean ====
section
/-! DEFINITION. The Translator (30_encoding.md R71 to R85): the synthesis pass on the host that turns source bytes into a
Program, with its three translation errors. It is not part of the core. -/

namespace Sys2Proof.Machine

/-- The 8 dialect symbols `+ - > < [ ] , .` (R71). -/
inductive Symbol where
  | plus
  | minus
  | right
  | left
  | openBracket
  | closeBracket
  | comma
  | dot
  deriving DecidableEq, Repr

/-- The symbol of a source byte; every byte that is no dialect symbol is a no-op byte (R71, GK1). -/
def symbolOf (b : Byte) : Option Symbol :=
  match b.toNat with
  | 0x2B => some .plus
  | 0x2D => some .minus
  | 0x3E => some .right
  | 0x3C => some .left
  | 0x5B => some .openBracket
  | 0x5D => some .closeBracket
  | 0x2C => some .comma
  | 0x2E => some .dot
  | _ => none

/-- Is this a pointer-move symbol, one that folds (R74)? -/
def Symbol.folds : Symbol → Bool
  | .plus => false
  | .minus => false
  | .right => true
  | .left => true
  | .openBracket => false
  | .closeBracket => false
  | .comma => false
  | .dot => false

/-- The instruction of a symbol with a given immediate (R72): a run's count for a pointer move (R74), 0 for the four
that never fold (R73) and as the placeholder of a bracket (R76). -/
def Symbol.instr (imm : Nat) : Symbol → Instr
  | .plus => .incWord imm
  | .minus => .decWord imm
  | .right => .addPtr imm
  | .left => .subPtr imm
  | .openBracket => .condLeft imm
  | .closeBracket => .condRight imm
  | .comma => .input imm
  | .dot => .output imm

/-- The translation errors (R148), each with the position it names: a byte offset in the source for
ImmediateOverflow, an instruction index for the other two, all counted from 0 (R75, R78 to R80). -/
inductive TranslationError where
  | unbalancedBracket (index : Nat)
  | immediateOverflow (position : Nat)
  | jumpRangeOverflow (index : Nat)
  deriving DecidableEq, Repr

/-- The look-ahead of a run of the symbol `s` (R74): how many more of it there are, and how many bytes the run takes.
It skips no-op bytes and stops at the first other dialect symbol or at the end. -/
def lookAhead (s : Symbol) : List Byte → Nat × Nat
  | [] => (0, 0)
  | b :: rest =>
    match symbolOf b with
    | none => ((lookAhead s rest).1, (lookAhead s rest).2 + 1)
    | some t => if t = s then ((lookAhead s rest).1 + 1, (lookAhead s rest).2 + 1) else (0, 0)

/-- Pass 1 (R73 to R76) from byte offset `pos`, with `skip` bytes still to pass over because a run has taken them: the
main scan resumes where the look-ahead stopped. -/
def pass1 (immCap : Nat) : (pos skip : Nat) → List Byte → Except TranslationError (List Instr)
  | _, _, [] => .ok []
  | pos, skip + 1, _ :: rest => pass1 immCap (pos + 1) skip rest
  | pos, 0, b :: rest =>
    match symbolOf b with
    | none => pass1 immCap (pos + 1) 0 rest
    | some s =>
      if s.folds then
        if immCap < (lookAhead s rest).1 + 1 then .error (.immediateOverflow pos)
        else (pass1 immCap (pos + 1) (lookAhead s rest).2 rest).map (s.instr ((lookAhead s rest).1 + 1) :: ·)
      else (pass1 immCap (pos + 1) 0 rest).map (s.instr 0 :: ·)

/-- Pass 2 in progress: the code, and the indices of the CondRights matched so far. -/
structure Resolution where
  code : List Instr
  matched : List Nat
  deriving DecidableEq, Repr

/-- Is there an instruction of this bracket kind at this index? -/
def kindAt (code : List Instr) (k : Nat) (kind : BracketKind) : Bool :=
  match code[k]? with
  | some i => decide (i.bracket = kind)
  | none => false

/-- One round of pass 2's loop (R77): if there is a CondLeft at index `i`, find its match and write the distance into
both. -/
def resolveAt (immCap : Nat) (r : Resolution) (i : Nat) : Except TranslationError Resolution :=
  if kindAt r.code i .opens then
    match matchOf r.code i with
    | none => .error (.unbalancedBracket i)
    | some j =>
      if immCap < j - i then .error (.jumpRangeOverflow i)
      else .ok { code := (r.code.set i (.condLeft (j - i))).set j (.condRight (j - i)), matched := j :: r.matched }
  else .ok r

/-- The first CondRight that no CondLeft matched (R80). -/
def strayRight (r : Resolution) : Option Nat :=
  (List.range r.code.length).find? fun j => kindAt r.code j .closes && !r.matched.contains j

/-- Pass 2 (R77 to R81): every CondLeft in increasing order of index, then the check for a stray CondRight. -/
def pass2 (immCap : Nat) (code : List Instr) : Except TranslationError (List Instr) :=
  match (List.range code.length).foldlM (resolveAt immCap) { code := code, matched := [] } with
  | .error e => .error e
  | .ok r =>
    match strayRight r with
    | some j => .error (.unbalancedBracket j)
    | none => .ok r.code

/-- `translate(source: bytes) -> Program | TranslationError` (R71, R81, R82): pass 1 to the end, then pass 2; all or
nothing. -/
def translateSource (immBits : Nat) (source : List Byte) : Except TranslationError (List Instr) :=
  match pass1 (immCapOf immBits) 0 0 source with
  | .error e => .error e
  | .ok code => pass2 (immCapOf immBits) code

end Sys2Proof.Machine
end

