-- ==== Sys2Proof/Machine/Launch.lean ====
section
/-! DEFINITION. What the host and the environment can do (70_reset_and_hazards.md R170 to R174, 43_io.md R121, R122): launch a
Program, reset, and answer an input request. None of it is a step of the core. -/

namespace Sys2Proof.Machine

/-- The reset action (R170): the whole tape and the three registers to 0, no request outstanding, nothing emitted. The
program store, the configuration and the environment's input are not touched. It is the start of every run and the only
way out of a halt, so no halt is recorded after it, and the premises P1 and P2 are checked here: without them the launch is
refused by name (R70, R150, R172, R180; log 10). DESIGN CHOICE (log 21): it can be done in any state, also while the core
runs or holds; R170 names no condition, and R174 names no reset among what the host does to a running core. -/
def State.resetRun (s : State) : Result :=
  if LegalConfig s.config s.progLen then
    if wordsFit s.config s.program && wellFormedProgram (codeOf s.config s.program) then
      .next { State.reset with program := s.program, config := s.config, input := s.input }
    else .refused .illFormedProgram
  else .refused .badConfig

/-- The boot order of R172 from its second step on: load the Program, set the configuration, connect the input, reset. -/
def launch (c : Config) (words : List Nat) (input : InputChannel) : Result :=
  State.resetRun { State.reset with program := words, config := c, input := input }

/-- The whole data flow of R172: source bytes, Translator, Program, core. A translation error comes instead of any
launch (R82, R148). -/
def bootSource (c : Config) (source : List Byte) (input : InputChannel) : Except TranslationError Result :=
  match translateSource c.immBits source with
  | .error e => .error e
  | .ok code => .ok (launch c (code.map encode) input)

/-- What the host does to a halted core before it resets it (R172, R173): load a Program, set the configuration, connect
the channels. -/
inductive HostMove where
  | load (words : List Nat)
  | configure (c : Config)
  | connect (input : InputChannel)
  deriving DecidableEq, Repr

/-- A move of the host. The halt is recorded first, so the core stays halted, with its class, until a reset (R96, D27; log
18). On a running core there is no such move: the host keeps its duties (R174, P4; log 13). DESIGN CHOICE (log 19): neither
is there one on a core whose run ended in the model-only fault UncheckedTapeAccess, which is over (R179) and not halted; the
spec does not say what the host may do to it. DESIGN CHOICE (log 20): `configure` sets the whole Config between two runs, so
IMM_BITS, IP_BITS, DP_BITS and EOF_POLICY too, which neither R172 (3) nor the list of R28 names. -/
def State.hostMove (s : State) (m : HostMove) : State :=
  if s.halted then
    match m with
    | .load words => { s.recordHalt with program := words }
    | .configure c => { s.recordHalt with config := c }
    | .connect input => { s.recordHalt with input := input }
  else s

/-- The environment offers one more input value (R121, R174). Exhaustion once reported is permanent, so nothing can be
offered after it (R122). -/
def State.offerInput (s : State) (v : Byte) : State :=
  if s.input.exhausted then s
  else { s with input := { s.input with pending := s.input.pending ++ [v] } }

/-- The environment reports that no value is left behind those already offered (R122). -/
def State.endInput (s : State) : State := { s with input := { s.input with exhausted := true } }

/-- The moves the environment has on a running core (R174): to answer with a value or with exhaustion. Accepting an
output value is part of `State.emit` (R30, P6). -/
inductive InputMove where
  | offer (v : Byte)
  | endOfInput
  deriving DecidableEq, Repr

/-- One move of the environment. -/
def State.answerMove (s : State) : InputMove → State
  | .offer v => s.offerInput v
  | .endOfInput => s.endInput

/-- The moves the environment makes between two steps of the core, in order (log 17). -/
def State.answers (s : State) (moves : List InputMove) : State := moves.foldl State.answerMove s

end Sys2Proof.Machine
end

