-- ==== Sys2Proof/Safety.lean ====
section
/-! DEFINITION. The terms claims are stated in: the launch premises (70_reset_and_hazards.md R180), the end of a run (R179),
the invariant of the machine, and what an instruction leaves unchanged. -/

namespace Sys2Proof.Machine

/-! ### Runs -/

/-- `n` steps of the core from `s`, stopping at the first fault or refusal: `Host.Core.run` of `Sys2Proof.core`, written
over `step` itself (Laws/Run.lean proves the two equal). -/
def runFor : Nat → State → Result
  | 0, s => .next s
  | n + 1, s =>
    match step s with
    | .next t => runFor n t
    | .fault f => .fault f
    | .refused r => .refused r

/-- `n` steps from `s` end in the state `t`, with no fault and no refusal on the way. -/
def Runs (n : Nat) (s t : State) : Prop := runFor n s = .next t

/-- A step from `s` executes an instruction to its end: R18's "a next state". -/
def Executes (s : State) : Prop := s.stepKind = .executes

/-- Over well: halted Clean or Forced (R179). -/
def OverWell (s : State) : Prop := s.exitClass = some .clean ∨ s.exitClass = some .forced

/-- Over badly: halted with class Fault, or at the model-only fault (R179). -/
def OverBadly (s : State) : Prop := s.exitClass = some .fault ∨ ∃ f, step s = .fault f

/-- P2 for the loaded Program: every word fits and the code is well formed (R25, R70). -/
def State.WellFormed (s : State) : Prop :=
  wordsFit s.config s.program = true ∧ wellFormedProgram (codeOf s.config s.program) = true

/-- P1 and P2 of the state's own configuration and Program (R180): the two premises that a reset checks. The others of
R180 are `State.ResetState`, `HostKeepsDuties`, `InputAnswers` and `SinkAccepts` below. -/
def State.Launched (s : State) : Prop := LegalConfig s.config s.progLen ∧ s.WellFormed

/-- P3, ResetState: the state of R32, with no request outstanding, nothing emitted and no halt recorded. The program store, the
configuration and the environment's input are any. -/
def State.ResetState (s : State) : Prop :=
  s.tape = [] ∧ s.ip = 0 ∧ s.dp = 0 ∧ s.stepCount = 0 ∧ s.inputRequest = false ∧ s.output = [] ∧
    s.haltedAs = none

/-- The model describes 64-bit hardware only up to here (R23, U10). -/
def State.WithinHardwareCounter (s : State) : Prop := s.stepCount < 2 ^ stepBits

/-! ### Runs with an environment -/

/-- The program store and the configuration are as before (R25, R28). -/
def SameStore (s t : State) : Prop := t.program = s.program ∧ t.config = s.config

/-- A run without end, beside an environment that makes the moves `env n` before step `n` of the core: `trace n` is the
state before those moves (R174; log 17). -/
def RunUnder (env : Nat → List InputMove) (trace : Nat → State) : Prop :=
  ∀ n, step ((trace n).answers (env n)) = .next (trace (n + 1))

/-- The tape and the three registers are as before. -/
def SameCore (s t : State) : Prop :=
  t.tape = s.tape ∧ t.ip = s.ip ∧ t.dp = s.dp ∧ t.stepCount = s.stepCount

/-- P4, HostKeepsDuties: the program store, PROG_LEN and the configuration are constant, and nothing but the core touches
the tape and the registers: the moves made between two of its steps leave them alone (R174, R180). -/
def HostKeepsDuties (env : Nat → List InputMove) (trace : Nat → State) : Prop :=
  (∀ n, SameStore (trace 0) (trace n)) ∧
  (∀ n, SameStore (trace n) ((trace n).answers (env n)) ∧ SameCore (trace n) ((trace n).answers (env n)))

/-- Exhaustion once reported is permanent (R122). -/
def ExhaustionPermanent (trace : Nat → State) : Prop :=
  ∀ m n, m ≤ n → (trace m).input.exhausted = true → (trace n).input.exhausted = true

/-- P5, InputAnswers: while a request is outstanding, the environment answers it sooner or later, with a value or with
exhaustion; and exhaustion is permanent (R121, R122, R174). Only a claim that a run ends needs it (R180). -/
def InputAnswers (env : Nat → List InputMove) (trace : Nat → State) : Prop :=
  (∀ n, (trace n).inputRequest = true → ∃ m, n ≤ m ∧ ((trace m).answers (env m)).input.request.isSome = true) ∧
  ExhaustionPermanent trace

/-- P6, SinkAccepts: an Output that executes has its value emitted within its own step (R30, R123). -/
def SinkAccepts (trace : Nat → State) : Prop :=
  ∀ n imm t, exec (.output imm) (trace n) = .next t →
    t.output = (trace n).output ++ [(trace n).cell] ∧ t.stepCount = (trace n).stepCount + 1

/-! ### The invariant -/

/-- An input request is outstanding only while an Input is the instruction to execute, with its cell on the tape
(R31, R120, R121). -/
def State.RequestWf (s : State) : Prop :=
  s.inputRequest = true → s.dp < s.config.tapeSize ∧ ∃ imm, s.current = some (.input imm)

/-- The registers lie in their ranges: `ip` in `0 .. PROG_LEN`, `dp` in its width, `step_count` at most the ceiling
(R21 to R23, R91, R132). -/
def State.RegistersWf (s : State) : Prop :=
  s.ip ≤ s.progLen ∧ s.dp < 2 ^ s.config.dpBits ∧ ∀ n, s.config.stepCeiling = some n → s.stepCount ≤ n

/-- The tape is in its canonical form and lists only cells that exist (R24, R46). -/
def State.TapeWf (s : State) : Prop := s.tape.wf = true ∧ s.tape.within s.config.tapeSize = true

/-- What holds of the state at every moment of a run. -/
def State.Wf (s : State) : Prop :=
  s.RegistersWf ∧ s.TapeWf ∧ wordsFit s.config s.program = true ∧ s.RequestWf

/-- A pointer off the tape, where the guard checks it, has just been moved there by the instruction before `ip`
(R141, R144). -/
def State.FaultWf (s : State) : Prop :=
  s.config.boundsCheck = true → s.config.tapeSize ≤ s.dp →
    ∃ k i, s.ip = k + 1 ∧ (codeOf s.config s.program)[k]? = some i ∧ i.isPointerMove = true

/-! ### What an instruction does and leaves alone -/

/-- Both channels are as before. -/
def SameChannels (s t : State) : Prop :=
  t.input = s.input ∧ t.inputRequest = s.inputRequest ∧ t.output = s.output

/-- Every cell of the tape reads as before. -/
def SameTape (s t : State) : Prop := ∀ a, t.tape.read a = s.tape.read a

/-- Every cell but the one at `dp`, the one address an instruction can store to (R41), reads as before. -/
def SameOtherCells (s t : State) : Prop := ∀ a, a ≠ s.dp → t.tape.read a = s.tape.read a

/-- The instruction faults where it would access a cell that does not exist, and nothing happens (R52). -/
def FaultsOffTheTape (i : Instr) : Prop :=
  ∀ s, s.config.tapeSize ≤ s.dp → exec i s = .fault (.uncheckedTapeAccess s.ip s.dp)

/-- With BOUNDS_CHECK = true a step that executes the instruction never faults (R52). -/
def NeverFaultsWhenChecked (i : Instr) : Prop :=
  ∀ s f, s.config.boundsCheck = true → s.current = some i → step s ≠ .fault f

/-- The `ip` that the effect of an instruction leaves, before the advance: a taken bracket has written it (R94, R130,
R131). -/
def ipBeforeAdvance (i : Instr) (s : State) : Nat :=
  match i with
  | .incWord _ => s.ip
  | .decWord _ => s.ip
  | .addPtr _ => s.ip
  | .subPtr _ => s.ip
  | .condLeft d => if s.tape.read s.dp = 0 then s.ip + d else s.ip
  | .condRight d => if s.tape.read s.dp = 0 then s.ip else s.ip - d
  | .input _ => s.ip
  | .output _ => s.ip

/-- Instructions executed one after another on a state, wherever they are stored. -/
def execAll : List Instr → State → Result
  | [], s => .next s
  | i :: rest, s =>
    match exec i s with
    | .next t => execAll rest t
    | .fault f => .fault f
    | .refused r => .refused r

/-- IncWord and DecWord only. -/
def CellArithmetic (code : List Instr) : Prop := ∀ i ∈ code, i.opc = 0 ∨ i.opc = 1

/-- The number of IncWord less the number of DecWord. -/
def netIncrements (code : List Instr) : Int :=
  (code.countP fun i => i.opc == 0 : Nat) - (code.countP fun i => i.opc == 1 : Nat)

/-! ### The same run under another configuration -/

/-- The state with the output mode flag set to `b` (R11). -/
def State.withAscii (s : State) (b : Bool) : State :=
  { s with config := { s.config with asciiOutput := b } }

/-- The state with neither bounds checking nor a step ceiling configured (R10, R155). -/
def State.withoutDiagnostics (s : State) : State :=
  { s with config := { s.config with boundsCheck := false, stepCeiling := none } }

end Sys2Proof.Machine
end

