-- ==== Sys2Proof/Certificates/Slice0/Obligations.lean ====
section
/-! DEFINITION. The statements for the provers. Each docstring names the rule or the section of spec/ it formalises and, where
a clause rests on a decision of the spec (D<n>) or on a choice of the model (log n), says so. -/

open Sys2Proof Sys2Proof.Machine

/-! ### Encoding -/

/-- R64: decoding the encoding of a well-formed instruction gives it back, with every operand, at every IMM_BITS. -/
def Obligations.DecodeOfEncodeReturnsTheInstruction : Prop :=
  ∀ (immBits : Nat) (i : Instr), i.wf immBits = true →
    decode immBits (encode i) = i ∧ encode i < 2 ^ wordBitsOf immBits

/-- R64, R65: every word of WORD_BITS bits decodes to a well-formed instruction whose encoding is that word. -/
def Obligations.EncodeOfDecodeReturnsTheWord : Prop :=
  ∀ immBits w : Nat, w < 2 ^ wordBitsOf immBits →
    (decode immBits w).wf immBits = true ∧ encode (decode immBits w) = w

/-- 95_test_vectors.md V-D1 to V-D17: words written out from the spec's encoding, one for each opcode. The opcode numbers are
the spec's decision D3; the 16 bits of a table row are laid out as log 14 says. -/
def Obligations.DecoderReadsTheWordsOfTheSpec : Prop :=
  decodeTableWord 16 0b0000000000000000 = some (.incWord 0) ∧
  decodeTableWord 16 0b0000000000000001 = some (.decWord 0) ∧
  decodeTableWord 16 0b1111111111111010 = some (.addPtr 8191) ∧
  decodeTableWord 16 0b0000000000100011 = some (.subPtr 4) ∧
  decodeTableWord 16 0b0000000100100100 = some (.condLeft 36) ∧
  decodeTableWord 16 0b0000000100100101 = some (.condRight 36) ∧
  decodeTableWord 16 0b0000000000000110 = some (.input 0) ∧
  decodeTableWord 16 0b0000000000001111 = some (.output 1)

/-- 20_memory.md R43 (decision D20; log 14): the byte image of a Program, two bytes a word, least significant first, reads
back as the same words. -/
def Obligations.ByteImageReadsBack : Prop :=
  ∀ words : List Nat, (∀ w ∈ words, w < 2 ^ 16) →
    programOfBytes (programBytes words) = .ok words ∧ (programBytes words).length = 2 * words.length

/-- R66 (decision D4): the four opcodes without an immediate execute the same whatever the field holds. -/
def Obligations.FourOpcodesIgnoreTheImmediate : Prop :=
  ∀ (m n : Nat) (s : State),
    exec (.incWord m) s = exec (.incWord n) s ∧ exec (.decWord m) s = exec (.decWord n) s ∧
    exec (.input m) s = exec (.input n) s ∧ exec (.output m) s = exec (.output n) s

/-! ### Reset and launch -/

/-- R24, R32, R170: the reset action. The tape value is the source's; `ip = dp = step_count = 0` is the spec's decision
D7. The program store and the configuration stay. That the environment's input stays too is in no rule: it is the
model's choice (log 5). A reset ends every halt; the record of one is the model's form (log 18). R70, R150, R180 (D16, D23):
a reset starts a run, so without P1 or P2 it is refused by name; that the reset is where they are checked, and the order
of the two, is the model's choice (log 10), and so is that a core that runs or holds can be reset (log 21). -/
def Obligations.ResetClearsTheTapeAndTheRegisters : Prop :=
  ∀ s : State,
    (s.Launched → ∃ t, s.resetRun = .next t ∧ (∀ a, t.tape.read a = 0) ∧
      t.ip = 0 ∧ t.dp = 0 ∧ t.stepCount = 0 ∧ t.inputRequest = false ∧ t.output = [] ∧ t.haltedAs = none ∧
      t.ResetState ∧ SameStore s t ∧ t.input = s.input) ∧
    (¬ LegalConfig s.config s.progLen → s.resetRun = .refused .badConfig) ∧
    (LegalConfig s.config s.progLen → ¬ s.WellFormed → s.resetRun = .refused .illFormedProgram)

/-- The state after reset meets the invariants that every step keeps. Its configuration is the model's choice where the
spec gives no default (log 3, log 4); the invariants do not depend on it. -/
def Obligations.ResetMeetsTheInvariants : Prop := State.reset.Wf ∧ State.reset.FaultWf

/-- R150, R180 (decisions D16, D23): a launch is refused by name without P1 or P2; otherwise it gives the reset state of
R32 (P3), no request outstanding, with the Program loaded, and that state meets every invariant; a host that loads,
configures, connects and resets a core halted in whatever run comes to the same outcome, refusal or state, so an
ill-formed Program never runs that way either (R70, R172, R173). That such a host may set the whole configuration, the
widths and EOF_POLICY with it, is the model's choice (log 20). The model's choice
(log 10): an illegal configuration is reported before an ill-formed Program, and a word wider than WORD_BITS makes the
Program ill formed. -/
def Obligations.LaunchChecksItsPremises : Prop :=
  ∀ (c : Config) (words : List Nat) (input : InputChannel),
    (∀ h : State, h.halted = true →
      (((h.hostMove (.load words)).hostMove (.configure c)).hostMove (.connect input)).resetRun =
        launch c words input) ∧
    (¬ LegalConfig c words.length → launch c words input = .refused .badConfig) ∧
    (LegalConfig c words.length → ¬ (wordsFit c words = true ∧ wellFormedProgram (codeOf c words) = true) →
      launch c words input = .refused .illFormedProgram) ∧
    (LegalConfig c words.length → wordsFit c words = true → wellFormedProgram (codeOf c words) = true →
      ∃ s, launch c words input = .next s ∧ s.program = words ∧ s.config = c ∧ s.input = input ∧
        s.ip = 0 ∧ s.dp = 0 ∧ s.stepCount = 0 ∧ (∀ a, s.tape.read a = 0) ∧
        s.inputRequest = false ∧ s.output = [] ∧ s.ResetState ∧ s.Launched ∧ s.Wf ∧ s.FaultWf)

/-! ### The tape and the program store -/

/-- R41: a write replaces the value of its cell and of no other; an instruction touches no cell but the one at `dp`,
and accesses the tape only where `dp < TAPE_SIZE` (elsewhere it is decision D15's fault). -/
def Obligations.TapeAccessIsOneCellAtTheDataPointer : Prop :=
  (∀ (m : Memory) (a : Nat) (v : Byte) (b : Nat), m.wf = true →
    (m.write a v).wf = true ∧ (m.write a v).read a = v ∧ (b ≠ a → (m.write a v).read b = m.read b)) ∧
  (∀ (i : Instr) (s t : State), exec i s = .next t →
    SameOtherCells s t ∧ (i.accessesTape = true → s.dp < s.config.tapeSize ∧ t.dp = s.dp) ∧
      (i.accessesTape = false → SameTape s t))

/-- R50: every fetch of one index during one run returns the same word, and a store goes to the cell at `dp` only. The
configuration is constant as well (R28). -/
def Obligations.ProgramStoreIsConstantDuringARun : Prop :=
  (∀ (n : Nat) (s t : State), Runs n s t → t.config = s.config ∧ ∀ i : Nat, t.program[i]? = s.program[i]?) ∧
  (∀ s t : State, step s = .next t → SameOtherCells s t)

/-! ### The cycle -/

/-- R92, whole: under the guard `Fetch(ip)` is defined, is the word at `ip` as `ip` stands when the step starts, and is the
word the step executes (a core with a halt on record makes no step: R96, log 18); that the step is `exec` at the very same
state says that the fetch changes nothing. -/
def Obligations.FetchReadsTheWordAtIp : Prop :=
  ∀ s : State, s.guard = true →
    s.ip < s.progLen ∧ ∃ w, s.fetch = some w ∧ s.program[s.ip]? = some w ∧
      (s.haltedAs = none →
        s.current = some (decode s.config.immBits w) ∧
        (LegalConfig s.config s.progLen → step s = exec (decode s.config.immBits w) s))

/-- R90, R91, R96: under a true guard a step is the decoded instruction at `ip`; under a false guard it changes nothing
(a halt is a next state: log 7); a core with a halt on record stays as it is (D27; log 18); without one a configuration
that is not legal is refused (R15, decision D23; log 10). -/
def Obligations.StepRunsTheDecodedInstruction : Prop :=
  (∀ (s : State) (w : Nat), s.haltedAs = none → LegalConfig s.config s.progLen → s.guard = true →
    s.program[s.ip]? = some w → step s = exec (decode s.config.immBits w) s) ∧
  (∀ s : State, LegalConfig s.config s.progLen → s.guard = false → step s = .next s) ∧
  (∀ s : State, s.haltedAs ≠ none → step s = .next s) ∧
  (∀ s : State, s.haltedAs = none → ¬ LegalConfig s.config s.progLen → step s = .refused .badConfig)

/-- R91: the guard is the conjunction of its three terms, two of them conditional on the configuration; at
`step_count = N` it is false. -/
def Obligations.GuardIsTheConjunctionOfItsTerms : Prop :=
  ∀ s : State,
    (s.guard = true ↔
      s.ip < s.program.length ∧
      (s.config.stepCeiling = none ∨ ∃ n, s.config.stepCeiling = some n ∧ s.stepCount < n) ∧
      (s.config.boundsCheck = false ∨ s.dp < s.config.tapeSize)) ∧
    (∀ n, s.config.stepCeiling = some n → s.stepCount = n → s.guard = false)

/-- R94: an Input whose request is not answered has not reached the advance, and changes nothing but the outstanding
request; every other instruction that answers a next state, whatever the opcode, leaves `ip` one above the `ip` its
effect has written and `step_count` one higher. That the hold is a next state is the model's choice (log 6). -/
def Obligations.AdvanceIsUnconditional : Prop :=
  ∀ (i : Instr) (s t : State), exec i s = .next t →
    ((∃ imm, i = .input imm) ∧ s.input.request = none → t = { s with inputRequest := true }) ∧
    (¬ ((∃ imm, i = .input imm) ∧ s.input.request = none) →
      t.ip = ipBeforeAdvance i s + 1 ∧ t.stepCount = s.stepCount + 1)

/-- R18, R23: what a step does is what its outcome's name says; `step_count` goes up by one exactly when an instruction
executes. A halt and a hold are next states in this model (log 6, log 7). -/
def Obligations.StepOutcomesAreThoseOfTheSpec : Prop :=
  ∀ s : State, s.RequestWf →
    (∀ c, s.stepKind = .halts c → step s = .next s ∧ s.exitClass = some c) ∧
    (s.stepKind = .holds → step s = .next { s with inputRequest := true } ∧ s.halted = false) ∧
    (s.stepKind = .executes →
      ∃ t, step s = .next t ∧ t.stepCount = s.stepCount + 1 ∧ t.inputRequest = false ∧ s.halted = false) ∧
    (∀ f, s.stepKind = .faults f → step s = .fault f) ∧
    (∀ r, s.stepKind = .refuses r → step s = .refused r)

/-- R96: a halted core executes nothing more, for ever (its steps are next states: log 7); and no move of the host, be it
another Program, configuration or input, restarts it before a reset or changes its class, its `fault_ip`, or what the
sink shows of its run (R124; decision D27; that the halt is recorded when the host first moves is the model's form, log
18). On a running core the host has no move (R174; log 13), nor on one stopped at the model-only fault (log 19). That a configuration move sets the widths and
EOF_POLICY too is the model's choice (log 20). A configuration that is not legal stops nothing here once the halt is on record. -/
def Obligations.HaltedCoreStaysHalted : Prop :=
  (∀ (s : State) (n : Nat), s.Meaningful → s.halted = true → Runs n s s) ∧
  (∀ (s : State) (m : HostMove), s.halted = true → ∀ h, h = s.hostMove m →
    h.halted = true ∧ h.exitClass = s.exitClass ∧ h.faultIp = s.faultIp ∧ h.haltedAs.map HaltRecord.exitClass = s.exitClass ∧
    h.ip = s.ip ∧ h.dp = s.dp ∧ h.stepCount = s.stepCount ∧ h.tape = s.tape ∧ h.inputRequest = s.inputRequest ∧
    h.output = s.output ∧ h.rendered = s.rendered ∧ h.countLine = s.countLine ∧ (∀ n, Runs n h h)) ∧
  (∀ (s : State) (m : HostMove), s.halted = false → s.hostMove m = s) ∧
  (∀ s t : State, s.resetRun = .next t → t.haltedAs = none)

/-- R142, R143 (decision D9): the exit class of a halted state whose registers are in their ranges. Forced means that the
ceiling is reached before the end. A class on record is kept (D27; log 18). -/
def Obligations.ExitClassesFollowTheirPriority : Prop :=
  (∀ (s : State) (r : HaltRecord), s.haltedAs = some r → s.halted = true ∧ s.exitClass = some r.exitClass) ∧
  ∀ s : State, s.haltedAs = none → s.RegistersWf → s.halted = true →
    (s.exitClass = some .fault ↔ s.config.boundsCheck = true ∧ s.config.tapeSize ≤ s.dp) ∧
    (s.exitClass = some .clean ↔
      ¬ (s.config.boundsCheck = true ∧ s.config.tapeSize ≤ s.dp) ∧ s.ip = s.progLen) ∧
    (s.exitClass = some .forced ↔
      ¬ (s.config.boundsCheck = true ∧ s.config.tapeSize ≤ s.dp) ∧ s.ip < s.progLen ∧
        s.config.stepCeiling = some s.stepCount)

/-- R144 (decision D10): a Fault reports `ip - 1`, the index of the AddPtr or SubPtr that moved the pointer off the
tape. (After a move of the host the index is the same, HaltedCoreStaysHalted, though another Program may be loaded.) -/
def Obligations.FaultIpNamesThePointerMove : Prop :=
  ∀ s : State, s.haltedAs = none → s.FaultWf → s.exitClass = some .fault →
    ∃ k i, s.ip = k + 1 ∧ s.faultIp = some k ∧ s.status.faultIp = some k ∧
      s.runtimeFault = some (.outOfBoundsPointer k) ∧
      (codeOf s.config s.program)[k]? = some i ∧ (i.opc = 2 ∨ i.opc = 3)

/-- R141: with bounds checking only an AddPtr or a SubPtr takes the pointer off the tape; it has then executed entirely,
and the step after it executes nothing, with class Fault and the move's index reported. Without bounds checking the
fault is never raised. After a reset the pointer is on the tape. The model's and the spec's choices in it: the priority of
Fault is D9, the reported index is D10, the codes of the three classes (R149) are D11, the pointer's reset value is D7,
and that the halted state is its own next state is log 7. -/
def Obligations.OutOfBoundsPointerIsFoundByTheNextGuard : Prop :=
  (∀ s t : State, s.config.boundsCheck = true → s.dp < s.config.tapeSize → step s = .next t →
    s.config.tapeSize ≤ t.dp →
      (∃ imm, s.current = some (.addPtr imm) ∨ s.current = some (.subPtr imm)) ∧
      t.ip = s.ip + 1 ∧ t.stepCount = s.stepCount + 1 ∧ t.tape = s.tape ∧
      t.exitClass = some .fault ∧ t.runtimeFault = some (.outOfBoundsPointer s.ip) ∧ step t = .next t) ∧
  (∀ s : State, s.haltedAs = none →
    (s.exitClass = some .fault ↔ s.config.boundsCheck = true ∧ s.config.tapeSize ≤ s.dp)) ∧
  (∀ s : State, s.haltedAs = none → s.config.boundsCheck = false → s.exitClass ≠ some .fault ∧ s.runtimeFault = none) ∧
  (∀ s t : State, s.resetRun = .next t → t.dp < t.config.tapeSize) ∧
  ExitClass.clean.code = 0 ∧ ExitClass.forced.code = 1 ∧ ExitClass.fault.code = 2

/-! ### Invariants -/

/-- R21 to R24, R31, R91, R132: `ip` stays in `0 .. PROG_LEN`, `dp` in its width, `step_count` at most the ceiling, the
tape in its canonical form on the cells that exist, the stored words in their width, and a request is outstanding only
at an Input. Every step from every such state keeps all of it. -/
def Obligations.EveryStepKeepsTheInvariant : Prop :=
  ∀ s t : State, s.Wf → step s = .next t → t.Wf

/-- R141, R144: whenever bounds checking finds the pointer off the tape, the instruction before `ip` is the pointer move
that took it there. -/
def Obligations.EveryStepKeepsTheFaultRecord : Prop :=
  ∀ s t : State, s.FaultWf → step s = .next t → t.FaultWf

/-! ### Cell arithmetic -/

/-- R100: its encoding (opcode numbers by decision D3), its source symbol (D25; the byte 0x2B is presumed, log 15), its
effect, its frame, its faults (D15; that `exec` faults whatever BOUNDS_CHECK is, is the model's, log 8). The immediate is
any: it is ignored (D4). -/
def Obligations.IncWordAddsOneToTheCurrentCell : Prop :=
  (∀ immBits w : Nat, w % 8 = 0 → decode immBits w = .incWord (immField immBits w)) ∧
  encode (.incWord 0) = 0x0000 ∧
  (∀ (immCap pos : Nat) (rest : List Byte),
    pass1 immCap pos 0 (0x2B :: rest) = (pass1 immCap (pos + 1) 0 rest).map (.incWord 0 :: ·)) ∧
  (∀ (imm : Nat) (s : State), s.tape.wf = true → s.dp < s.config.tapeSize →
    ∃ t, exec (.incWord imm) s = .next t ∧
      (t.tape.read s.dp).toNat = ((s.tape.read s.dp).toNat + 1) % 256 ∧ SameOtherCells s t ∧
      t = { s with tape := t.tape, ip := s.ip + 1, stepCount := s.stepCount + 1 }) ∧
  (∀ imm : Nat, FaultsOffTheTape (.incWord imm) ∧ NeverFaultsWhenChecked (.incWord imm))

/-- R101: its encoding (opcode numbers by decision D3), its source symbol (D25; the byte 0x2D is presumed, log 15), its
effect, its frame, its faults (D15; that `exec` faults whatever BOUNDS_CHECK is, is the model's, log 8). The immediate is
any: it is ignored (D4). -/
def Obligations.DecWordTakesOneFromTheCurrentCell : Prop :=
  (∀ immBits w : Nat, w % 8 = 1 → decode immBits w = .decWord (immField immBits w)) ∧
  encode (.decWord 0) = 0x0001 ∧
  (∀ (immCap pos : Nat) (rest : List Byte),
    pass1 immCap pos 0 (0x2D :: rest) = (pass1 immCap (pos + 1) 0 rest).map (.decWord 0 :: ·)) ∧
  (∀ (imm : Nat) (s : State), s.tape.wf = true → s.dp < s.config.tapeSize →
    ∃ t, exec (.decWord imm) s = .next t ∧
      (t.tape.read s.dp).toNat = ((s.tape.read s.dp).toNat + 255) % 256 ∧ SameOtherCells s t ∧
      t = { s with tape := t.tape, ip := s.ip + 1, stepCount := s.stepCount + 1 }) ∧
  (∀ imm : Nat, FaultsOffTheTape (.decWord imm) ∧ NeverFaultsWhenChecked (.decWord imm))

/-- R102: any sequence of IncWord and DecWord adds its net count modulo 256 to the current cell and changes no other; a
net count that is a multiple of 256 (256 IncWord, 256 DecWord, one of each) restores the whole tape; from a zero cell
the cell is zero exactly then; and no instruction but Input changes a cell by anything but one. -/
def Obligations.CellArithmeticIsModulo256 : Prop :=
  (∀ (code : List Instr) (s : State), CellArithmetic code → s.tape.wf = true → s.dp < s.config.tapeSize →
    ∃ t, execAll code s = .next t ∧
      ((t.tape.read s.dp).toNat : Int) = ((s.tape.read s.dp).toNat + netIncrements code) % 256 ∧
      SameOtherCells s t ∧ t.dp = s.dp ∧
      ((256 : Int) ∣ netIncrements code → t.tape = s.tape) ∧
      (s.tape.read s.dp = 0 → (t.tape.read s.dp = 0 ↔ (256 : Int) ∣ netIncrements code))) ∧
  (∀ (i : Instr) (s t : State), (∀ imm, i ≠ .input imm) → s.tape.wf = true → exec i s = .next t →
    t.tape.read s.dp = s.tape.read s.dp ∨ t.tape.read s.dp = s.tape.read s.dp + 1 ∨
      t.tape.read s.dp = s.tape.read s.dp - 1)

/-- R26, R27, R41: the frame of IncWord and DecWord, which store one cell, the one at `dp`. -/
def Obligations.CellArithmeticFrame : Prop :=
  ∀ (i : Instr) (s t : State), i.opc = 0 ∨ i.opc = 1 → exec i s = .next t →
    t.dp = s.dp ∧ SameOtherCells s t ∧ SameStore s t ∧ SameChannels s t ∧ t.haltedAs = s.haltedAs

/-! ### Pointer moves -/

/-- R110: its encoding (D3), its source symbol (D25; the byte 0x3E is presumed, log 15), its effect in every state (the modulus is decision D6), its
corner cases, and the halt at the next guard when the pointer has left the tape. -/
def Obligations.AddPtrMovesThePointerUp : Prop :=
  (∀ immBits w : Nat, w % 8 = 2 → decode immBits w = .addPtr (immField immBits w)) ∧
  (∀ imm : Nat, encode (.addPtr imm) = imm * 8 + 2) ∧
  (∀ (immCap pos count : Nat) (rest : List Byte), count + 1 ≤ immCap →
    (rest = [] ∨ ∃ b rest' other, rest = b :: rest' ∧ symbolOf b = some other ∧ other ≠ .right) →
      pass1 immCap pos 0 (0x3E :: (List.replicate count 0x3E ++ rest)) =
        (pass1 immCap (pos + 1 + count) 0 rest).map (.addPtr (count + 1) :: ·)) ∧
  (∀ (immBits : Nat) (src : List Byte) (code : List Instr) (imm : Nat), translateSource immBits src = .ok code →
    .addPtr imm ∈ code → 1 ≤ imm ∧ imm ≤ immCapOf immBits) ∧
  (∀ (imm : Nat) (s : State), exec (.addPtr imm) s =
    .next { s with dp := (s.dp + imm) % 2 ^ s.config.dpBits, ip := s.ip + 1, stepCount := s.stepCount + 1 }) ∧
  (∀ (imm : Nat) (s t : State), s.config.boundsCheck = true → s.current = some (.addPtr imm) →
    step s = .next t → s.config.tapeSize ≤ t.dp → t.exitClass = some .fault ∧ t.ip = s.ip + 1) ∧
  (∀ s t : State, s.dp < 2 ^ s.config.dpBits → exec (.addPtr 0) s = .next t → t.dp = s.dp) ∧
  (∀ (imm : Nat) (s t : State), LegalConfig s.config s.progLen → s.dp < s.config.tapeSize →
    imm ≤ s.config.immCap → exec (.addPtr imm) s = .next t → t.dp = s.dp + imm)

/-- R111: its encoding (D3), its source symbol (D25; the byte 0x3C is presumed, log 15), its effect in every state (the modulus is decision D6), its
corner cases, and the halt at the next guard when the pointer has left the tape. -/
def Obligations.SubPtrMovesThePointerDown : Prop :=
  (∀ immBits w : Nat, w % 8 = 3 → decode immBits w = .subPtr (immField immBits w)) ∧
  (∀ imm : Nat, encode (.subPtr imm) = imm * 8 + 3) ∧
  (∀ (immCap pos count : Nat) (rest : List Byte), count + 1 ≤ immCap →
    (rest = [] ∨ ∃ b rest' other, rest = b :: rest' ∧ symbolOf b = some other ∧ other ≠ .left) →
      pass1 immCap pos 0 (0x3C :: (List.replicate count 0x3C ++ rest)) =
        (pass1 immCap (pos + 1 + count) 0 rest).map (.subPtr (count + 1) :: ·)) ∧
  (∀ (immBits : Nat) (src : List Byte) (code : List Instr) (imm : Nat), translateSource immBits src = .ok code →
    .subPtr imm ∈ code → 1 ≤ imm ∧ imm ≤ immCapOf immBits) ∧
  (∀ (imm : Nat) (s : State), ∃ t, exec (.subPtr imm) s = .next t ∧
    (t.dp : Int) = ((s.dp : Int) - (imm : Int)) % (2 ^ s.config.dpBits : Nat) ∧
    t = { s with dp := t.dp, ip := s.ip + 1, stepCount := s.stepCount + 1 }) ∧
  (∀ (imm : Nat) (s t : State), s.config.boundsCheck = true → s.current = some (.subPtr imm) →
    step s = .next t → s.config.tapeSize ≤ t.dp → t.exitClass = some .fault ∧ t.ip = s.ip + 1) ∧
  (∀ (imm : Nat) (s t : State), s.dp < 2 ^ s.config.dpBits → imm ≤ s.dp →
    exec (.subPtr imm) s = .next t → t.dp = s.dp - imm) ∧
  (∀ (imm : Nat) (s t : State), LegalConfig s.config s.progLen → s.dp < imm → imm ≤ s.config.immCap →
    exec (.subPtr imm) s = .next t →
      t.dp = 2 ^ s.config.dpBits - (imm - s.dp) ∧ s.config.tapeSize ≤ t.dp)

/-- R112 (decision D6): opposite moves compose exactly, in either order, from any pointer value, on or off the tape. -/
def Obligations.OppositePointerMovesCancel : Prop :=
  ∀ (n : Nat) (s : State), s.dp < 2 ^ s.config.dpBits →
    (∃ t, execAll [.addPtr n, .subPtr n] s = .next t ∧ t.dp = s.dp) ∧
    (∃ t, execAll [.subPtr n, .addPtr n] s = .next t ∧ t.dp = s.dp)

/-- R113: after one move from a pointer on the tape, the pointer is on the tape exactly when the integer sum or
difference is. -/
def Obligations.EveryOutOfBoundsMoveIsDetected : Prop :=
  ∀ (n : Nat) (s t : State), LegalConfig s.config s.progLen → s.dp < s.config.tapeSize → n ≤ s.config.immCap →
    (exec (.addPtr n) s = .next t →
      (t.dp < s.config.tapeSize ↔ (s.dp : Int) + n < s.config.tapeSize)) ∧
    (exec (.subPtr n) s = .next t → (t.dp < s.config.tapeSize ↔ 0 ≤ (s.dp : Int) - n))

/-- R22, R26: the frame of AddPtr and SubPtr, which store nothing; and `dp` is written by no other instruction. -/
def Obligations.PointerMoveFrame : Prop :=
  ∀ (i : Instr) (s t : State), exec i s = .next t →
    ((i.opc = 2 ∨ i.opc = 3) → SameTape s t ∧ SameStore s t ∧ SameChannels s t ∧ t.haltedAs = s.haltedAs ∧
      t.ip = s.ip + 1) ∧
    (i.opc ≠ 2 → i.opc ≠ 3 → t.dp = s.dp)

/-! ### Input and Output -/

/-- R120, R122: its encoding (D3), its source symbol (D25; the byte 0x2C is presumed, log 15); an answered Input stores
the oldest value and consumes it (8 bits: D13), or follows EOF_POLICY on exhaustion (D12; any policy, log 4); the bounds
fault comes before the request, so no value is consumed (D15; in `exec` whatever BOUNDS_CHECK is, log 8). -/
def Obligations.InputStoresTheAnswer : Prop :=
  (∀ immBits w : Nat, w % 8 = 6 → decode immBits w = .input (immField immBits w)) ∧
  encode (.input 0) = 0x0006 ∧
  (∀ (immCap pos : Nat) (rest : List Byte),
    pass1 immCap pos 0 (0x2C :: rest) = (pass1 immCap (pos + 1) 0 rest).map (.input 0 :: ·)) ∧
  (∀ (imm : Nat) (s : State), s.tape.wf = true → s.dp < s.config.tapeSize →
    (∀ v rest, s.input.pending = v :: rest →
      ∃ t, exec (.input imm) s = .next t ∧ t.tape.read s.dp = v ∧ SameOtherCells s t ∧
        t = { s with
          tape := t.tape, input := { s.input with pending := rest }, inputRequest := false,
          ip := s.ip + 1, stepCount := s.stepCount + 1 }) ∧
    (s.input.pending = [] → s.input.exhausted = true →
      ∃ t, exec (.input imm) s = .next t ∧ SameOtherCells s t ∧
        (s.config.eofPolicy = .noWrite → t.tape = s.tape) ∧
        (∀ v, s.config.eofPolicy = .sentinel v → t.tape.read s.dp = v) ∧
        t = { s with tape := t.tape, inputRequest := false, ip := s.ip + 1, stepCount := s.stepCount + 1 })) ∧
  (∀ imm : Nat, FaultsOffTheTape (.input imm) ∧ NeverFaultsWhenChecked (.input imm))

/-- R121: while the capability has not answered, the Input holds, for ever if it never does: nothing changes but the
outstanding request, and the core is not halted. An answer, and nothing else, lifts the hold. No other instruction
holds. The model's choices in it: the hold is a step of the model to a next state, where R121 says that the core makes no
step (log 6), and an answer is `offerInput` or `endInput` on the channel of log 5. -/
def Obligations.InputHoldsUntilAnswered : Prop :=
  (∀ (imm : Nat) (s h : State), LegalConfig s.config s.progLen → s.current = some (.input imm) →
    s.dp < s.config.tapeSize → s.input = { pending := [], exhausted := false } →
    h = { s with inputRequest := true } →
      h.halted = false ∧ (∀ n, Runs (n + 1) s h) ∧
      (∀ v, ∃ t, step (h.offerInput v) = .next t ∧ t.stepCount = s.stepCount + 1 ∧ t.ip = s.ip + 1 ∧
        t.inputRequest = false) ∧
      (∃ t, step h.endInput = .next t ∧ t.stepCount = s.stepCount + 1 ∧ t.ip = s.ip + 1 ∧
        t.inputRequest = false)) ∧
  (∀ s : State, s.RequestWf → s.stepKind = .holds →
    (∃ imm, s.current = some (.input imm)) ∧ s.input = { pending := [], exhausted := false })

/-- R122 (permanence is decision D12): once the capability is exhausted it stays so for the run, and an Input then
executes: it does not hold, and it is not a fault. -/
def Obligations.ExhaustionIsPermanentAndNoFault : Prop :=
  (∀ (n : Nat) (s t : State), s.input = { pending := [], exhausted := true } → Runs n s t → t.input = s.input) ∧
  (∀ (imm : Nat) (s : State), LegalConfig s.config s.progLen → s.current = some (.input imm) →
    s.dp < s.config.tapeSize → s.input = { pending := [], exhausted := true } →
      ∃ t, step s = .next t ∧ t.ip = s.ip + 1 ∧ t.stepCount = s.stepCount + 1 ∧ t.inputRequest = false)

/-- R120, R122: the frame of Input, held or executed. It may store one cell, the one at `dp`. -/
def Obligations.InputFrame : Prop :=
  ∀ (imm : Nat) (s t : State), exec (.input imm) s = .next t →
    t.dp = s.dp ∧ SameOtherCells s t ∧ SameStore s t ∧ t.output = s.output ∧ t.haltedAs = s.haltedAs ∧
    t.input.exhausted = s.input.exhausted ∧
    (t.input.pending = s.input.pending ∨ ∃ v, s.input.pending = v :: t.input.pending)

/-- R123: its encoding (D3), its source symbol (D25; the byte 0x2E is presumed, log 15); Output emits the current cell, and
that is all (the sink always accepts: D21); off the tape nothing is emitted (D15; in `exec` whatever BOUNDS_CHECK is,
log 8). -/
def Obligations.OutputEmitsTheCurrentCell : Prop :=
  (∀ immBits w : Nat, w % 8 = 7 → decode immBits w = .output (immField immBits w)) ∧
  encode (.output 0) = 0x0007 ∧
  (∀ (immCap pos : Nat) (rest : List Byte),
    pass1 immCap pos 0 (0x2E :: rest) = (pass1 immCap (pos + 1) 0 rest).map (.output 0 :: ·)) ∧
  (∀ (imm : Nat) (s : State), s.dp < s.config.tapeSize →
    exec (.output imm) s =
      .next { s with
        output := s.output ++ [s.tape.read s.dp], ip := s.ip + 1, stepCount := s.stepCount + 1 }) ∧
  (∀ imm : Nat, FaultsOffTheTape (.output imm) ∧ NeverFaultsWhenChecked (.output imm))

/-- R123: the frame of Output, which stores nothing and writes no core state but `ip` and `step_count`. -/
def Obligations.OutputFrame : Prop :=
  ∀ (imm : Nat) (s t : State), exec (.output imm) s = .next t →
    SameTape s t ∧ t.dp = s.dp ∧ SameStore s t ∧ t.input = s.input ∧ t.inputRequest = s.inputRequest ∧
    t.haltedAs = s.haltedAs

/-- R48, R145: values are emitted in execution order and stay emitted; input values are consumed in order, and what a run
has not consumed is still there. -/
def Obligations.ChannelsAreUsedInOrder : Prop :=
  ∀ (n : Nat) (s t : State), Runs n s t →
    (∃ emitted, t.output = s.output ++ emitted ∧ emitted.length ≤ n) ∧
    (∃ consumed, s.input.pending = consumed ++ t.input.pending ∧ consumed.length ≤ n)

/-! ### Control -/

/-- R130: its operand in a well-formed Program, its encoding (D3), its source symbol (D25; the byte 0x5B is presumed,
log 15), both outcomes of the test, its faults (D15; in `exec` whatever BOUNDS_CHECK is, log 8), and the skip that ends a
run Clean. That a skip runs in a Program that is not well formed, if its landing slot exists, is the model's (log 9). -/
def Obligations.CondLeftSkipsOnZero : Prop :=
  (∀ immBits w : Nat, w % 8 = 4 → decode immBits w = .condLeft (immField immBits w)) ∧
  (∀ imm : Nat, encode (.condLeft imm) = imm * 8 + 4) ∧
  (∀ (immCap pos : Nat) (rest : List Byte),
    pass1 immCap pos 0 (0x5B :: rest) = (pass1 immCap (pos + 1) 0 rest).map (.condLeft 0 :: ·)) ∧
  (∀ (immCap k : Nat) (code resolved : List Instr), pass2 immCap code = .ok resolved →
    kindAt code k .opens = true → ∃ d, 1 ≤ d ∧ d ≤ immCap ∧ resolved[k]? = some (.condLeft d)) ∧
  (∀ (imm : Nat) (s : State), s.Launched → s.current = some (.condLeft imm) →
    1 ≤ imm ∧ imm ≤ s.config.immCap ∧ s.ip + imm < s.progLen ∧ s.ip + imm + 1 < 2 ^ s.config.ipBits ∧
      (codeOf s.config s.program)[s.ip + imm]? = some (.condRight imm)) ∧
  (∀ (imm : Nat) (s : State), s.dp < s.config.tapeSize → s.tape.read s.dp = 0 → s.ip + imm < s.progLen →
    exec (.condLeft imm) s = .next { s with ip := s.ip + imm + 1, stepCount := s.stepCount + 1 }) ∧
  (∀ (imm : Nat) (s : State), s.dp < s.config.tapeSize → s.tape.read s.dp ≠ 0 →
    exec (.condLeft imm) s = .next { s with ip := s.ip + 1, stepCount := s.stepCount + 1 }) ∧
  (∀ imm : Nat, FaultsOffTheTape (.condLeft imm) ∧ NeverFaultsWhenChecked (.condLeft imm)) ∧
  (∀ (imm : Nat) (s : State), s.Launched → s.current = some (.condLeft imm) → s.dp < s.config.tapeSize →
    s.tape.read s.dp = 0 → s.ip + imm + 1 = s.progLen →
      ∃ t, step s = .next t ∧ t.ip = t.progLen ∧ t.exitClass = some .clean)

/-- R131: its operand in a well-formed Program, its encoding (D3), its source symbol (D25; the byte 0x5D is presumed,
log 15), both outcomes of the test, its faults (D15; in `exec` whatever BOUNDS_CHECK is, log 8), the empty body, and the
exit that ends a run Clean. That a jump back runs in a Program that is not well formed, if its landing slot exists, is the
model's (log 9). -/
def Obligations.CondRightRepeatsOnNonZero : Prop :=
  (∀ immBits w : Nat, w % 8 = 5 → decode immBits w = .condRight (immField immBits w)) ∧
  (∀ imm : Nat, encode (.condRight imm) = imm * 8 + 5) ∧
  (∀ (immCap pos : Nat) (rest : List Byte),
    pass1 immCap pos 0 (0x5D :: rest) = (pass1 immCap (pos + 1) 0 rest).map (.condRight 0 :: ·)) ∧
  (∀ (immCap k : Nat) (code resolved : List Instr), pass2 immCap code = .ok resolved →
    kindAt code k .closes = true → ∃ d, 1 ≤ d ∧ d ≤ immCap ∧ resolved[k]? = some (.condRight d)) ∧
  (∀ (imm : Nat) (s : State), s.Launched → s.current = some (.condRight imm) →
    1 ≤ imm ∧ imm ≤ min s.ip s.config.immCap ∧
      (codeOf s.config s.program)[s.ip - imm]? = some (.condLeft imm)) ∧
  (∀ (imm : Nat) (s : State), s.dp < s.config.tapeSize → s.tape.read s.dp ≠ 0 → imm ≤ s.ip →
    exec (.condRight imm) s = .next { s with ip := s.ip - imm + 1, stepCount := s.stepCount + 1 }) ∧
  (∀ (imm : Nat) (s : State), s.dp < s.config.tapeSize → s.tape.read s.dp = 0 →
    exec (.condRight imm) s = .next { s with ip := s.ip + 1, stepCount := s.stepCount + 1 }) ∧
  (∀ imm : Nat, FaultsOffTheTape (.condRight imm) ∧ NeverFaultsWhenChecked (.condRight imm)) ∧
  (∀ s t : State, s.Launched → s.current = some (.condRight 1) → s.tape.read s.dp ≠ 0 → step s = .next t →
    t.ip = s.ip) ∧
  (∀ (imm : Nat) (s : State), s.Launched → s.current = some (.condRight imm) → s.dp < s.config.tapeSize →
    s.tape.read s.dp = 0 → s.ip + 1 = s.progLen →
      ∃ t, step s = .next t ∧ t.ip = t.progLen ∧ t.exitClass = some .clean)

/-- R130, R131, R27: the frame of CondLeft and CondRight: nothing but `ip` and `step_count` changes. -/
def Obligations.BracketFrame : Prop :=
  ∀ (i : Instr) (s t : State), i.opc = 4 ∨ i.opc = 5 → exec i s = .next t →
    SameTape s t ∧ t.dp = s.dp ∧ SameStore s t ∧ SameChannels s t ∧ t.haltedAs = s.haltedAs

/-- R132: in a well-formed Program a taken bracket lands on its partner, whose own immediate leads back, so that the
advance goes one past the partner; and `ip` stays within `0 .. PROG_LEN` whatever the instruction. -/
def Obligations.TakenBracketLandsOnePastItsPartner : Prop :=
  ∀ (s t : State), s.Launched → step s = .next t → s.ip ≤ s.progLen →
    t.ip ≤ t.progLen ∧
    (∀ d, s.current = some (.condLeft d) → s.tape.read s.dp = 0 →
      ∃ j, t.ip = j + 1 ∧ j = s.ip + d ∧ matchOf (codeOf s.config s.program) s.ip = some j ∧
        (codeOf s.config s.program)[j]? = some (.condRight d)) ∧
    (∀ d, s.current = some (.condRight d) → s.tape.read s.dp ≠ 0 →
      ∃ i, t.ip = i + 1 ∧ i + d = s.ip ∧ matchOf (codeOf s.config s.program) i = some s.ip ∧
        (codeOf s.config s.program)[i]? = some (.condLeft d))

/-! ### Faults and stops -/

/-- R52, R150 (decision D15): a step faults exactly when bounds checking is off and the current instruction accesses the
tape through a pointer off it; the fault names `ip` and `dp`. -/
def Obligations.StepFaultsExactlyOnAnUncheckedAccess : Prop :=
  ∀ (s : State) (f : Fault),
    step s = .fault f ↔
      LegalConfig s.config s.progLen ∧ s.config.boundsCheck = false ∧ s.config.tapeSize ≤ s.dp ∧
        (∃ i, s.current = some i ∧ i.accessesTape = true) ∧ f = .uncheckedTapeAccess s.ip s.dp

/-- R70, R132, R180: from a legal configuration with a well-formed Program and bounds checking on, a run of any length
meets neither a fault nor a refusal, and ends with the same premises. The run goes on through a hold and past a halt,
which are next states in this model (log 6, log 7). -/
def Obligations.LaunchedProgramsNeverGetStuck : Prop :=
  ∀ (s : State) (n : Nat), s.Launched → s.config.boundsCheck = true →
    ∃ t, Runs n s t ∧ t.Launched ∧ t.config.boundsCheck = true

/-! ### Whole runs -/

/-- R98: with a ceiling N, a run without a hold is halted after at most N steps; without one it need not halt at all:
the Program of Scenario B (`+[]`) runs for ever, in the default configuration of the model (log 3, DESIGN CHOICE). -/
def Obligations.OnlyACeilingEndsEveryRun : Prop :=
  (∀ (s t : State) (ceiling n : Nat), s.config.stepCeiling = some ceiling →
    (∀ k u, k < n → Runs k s u → u.stepKind ≠ .holds) → ceiling ≤ s.stepCount + n → Runs n s t →
      t.halted = true) ∧
  (∃ s, launch Config.default [0x0000, 0x000C, 0x000D] { pending := [], exhausted := true } = .next s ∧
    ∀ n, ∃ t, Runs n s t ∧ t.halted = false)

/-- R98, R180 (P5): with a ceiling N every run under an environment that answers each request halts, after at most N
executed instructions. The environment moves between steps (log 17). -/
def Obligations.CeilingEndsEveryAnsweredRun : Prop :=
  ∀ (env : Nat → List InputMove) (trace : Nat → State) (ceiling : Nat),
    RunUnder env trace → InputAnswers env trace → (trace 0).config.stepCeiling = some ceiling →
    (trace 0).stepCount ≤ ceiling →
      ∃ n, (trace n).halted = true ∧ (trace n).stepCount ≤ ceiling

/-- R174, R180 (P4 to P6): whatever the environment answers, and whenever, it changes only the input capability, where it
adds values behind those offered and nothing once exhaustion is reported; so in every run under an environment the
host's duties are kept, the sink accepts, exhaustion is permanent (D12) and a launched state stays launched. That there is
no other move is the model's choice (log 13, log 17). -/
def Obligations.EnvironmentKeepsItsPremises : Prop :=
  (∀ (s : State) (moves : List InputMove), ∃ channel more,
    s.answers moves = { s with input := channel } ∧ channel.pending = s.input.pending ++ more ∧
      (s.input.exhausted = true → channel = s.input)) ∧
  (∀ (env : Nat → List InputMove) (trace : Nat → State), RunUnder env trace →
    HostKeepsDuties env trace ∧ SinkAccepts trace ∧ ExhaustionPermanent trace ∧
      ((trace 0).Launched → ∀ n, (trace n).Launched))

/-- R23: along every run `step_count` never goes down, and goes up by at most one a step. -/
def Obligations.StepCountIsMonotonic : Prop :=
  ∀ (n : Nat) (s t : State), Runs n s t → s.stepCount ≤ t.stepCount ∧ t.stepCount ≤ s.stepCount + n

/-- R11: the core does not read ASCII_OUTPUT: a step under the other value of the flag has the same outcome, and the same
next state but for the flag. -/
def Obligations.AsciiOutputIsNotRead : Prop :=
  ∀ (b : Bool) (s : State),
    (∀ t, step s = .next t → step (s.withAscii b) = .next (t.withAscii b)) ∧
    (∀ f, step s = .fault f → step (s.withAscii b) = .fault f) ∧
    (∀ r, step s = .refused r → step (s.withAscii b) = .refused r)

/-- R155: for a run in which `dp` never leaves the tape and the ceiling is not reached, the machine without the
diagnostics terms executes the same instructions and comes to the same state. -/
def Obligations.DiagnosticsTermsChangeNothing : Prop :=
  ∀ (n : Nat) (s t : State), Runs n s t →
    (∀ k u, k < n → Runs k s u → u.dp < u.config.tapeSize ∧ u.belowCeiling = true) →
      Runs n s.withoutDiagnostics t.withoutDiagnostics

/-! ### The Translator -/

/-- R74: a run of one pointer-move symbol, no-op bytes interleaved, folds into one instruction whose immediate is the
count of the run's own symbols, and the scan resumes behind it; a count above IMM_CAP fails at the run's first symbol. -/
def Obligations.PointerMoveRunFoldsIntoOneInstruction : Prop :=
  (∀ n, Symbol.right.instr n = .addPtr n) ∧ (∀ n, Symbol.left.instr n = .subPtr n) ∧
  (∀ (immCap pos : Nat) (s : Symbol) (first : Byte) (run rest : List Byte) (count : Nat),
    s.folds = true → symbolOf first = some s →
    (∀ b ∈ run, symbolOf b = none ∨ symbolOf b = some s) →
    (rest = [] ∨ ∃ b rest' other, rest = b :: rest' ∧ symbolOf b = some other ∧ other ≠ s) →
    count = (first :: run).countP (fun b => symbolOf b == some s) →
      (count ≤ immCap →
        pass1 immCap pos 0 (first :: (run ++ rest)) =
          (pass1 immCap (pos + 1 + run.length) 0 rest).map (s.instr count :: ·)) ∧
      (immCap < count → pass1 immCap pos 0 (first :: (run ++ rest)) = .error (.immediateOverflow pos)))

/-- R73, R76 (decision D4 for the immediate 0): wherever the main scan meets a symbol that does not fold it gives exactly
one instruction, with immediate 0, whatever follows, and a no-op byte gives none; so a source without pointer-move symbols
gives one instruction a symbol. -/
def Obligations.OtherSymbolsNeverFold : Prop :=
  (∀ (immCap pos : Nat) (b : Byte) (rest : List Byte),
    (symbolOf b = none → pass1 immCap pos 0 (b :: rest) = pass1 immCap (pos + 1) 0 rest) ∧
    (∀ s, symbolOf b = some s → s.folds = false →
      pass1 immCap pos 0 (b :: rest) = (pass1 immCap (pos + 1) 0 rest).map (s.instr 0 :: ·))) ∧
  (∀ s : Symbol, s.folds = true ↔ s = .right ∨ s = .left) ∧
  (∀ (immCap pos : Nat) (src : List Byte), (∀ b ∈ src, ∀ s, symbolOf b = some s → s.folds = false) →
    pass1 immCap pos 0 src = .ok ((src.filterMap symbolOf).map fun s => s.instr 0))

/-- R77 to R79, R81 (the order is decision D17): the first CondLeft, in increasing order, that has no match within
IMM_CAP decides the error of pass 2: UnbalancedBracket without a match, JumpRangeOverflow with one too far. -/
def Obligations.FirstFailingCondLeftIsReported : Prop :=
  ∀ (immCap i : Nat) (code : List Instr), kindAt code i .opens = true →
    (∀ k < i, kindAt code k .opens = true → ∃ j, matchOf code k = some j ∧ j - k ≤ immCap) →
      (matchOf code i = none → pass2 immCap code = .error (.unbalancedBracket i)) ∧
      (∀ j, matchOf code i = some j → immCap < j - i → pass2 immCap code = .error (.jumpRangeOverflow i))

/-- R79, R81 (the order, that the first CondLeft that fails is the one reported, is decision D17): a matched distance above
IMM_CAP fails, naming the CondLeft's index, if every CondLeft before it resolves; at every IMM_CAP, one pair round
IncWords at a distance of exactly IMM_CAP is accepted and at one more fails, as in R79's two examples. -/
def Obligations.JumpRangeEndsAtTheImmediateCapacity : Prop :=
  (∀ (immCap i j : Nat) (code : List Instr), kindAt code i .opens = true → matchOf code i = some j → immCap < j - i →
    (∀ k < i, kindAt code k .opens = true → ∃ m, matchOf code k = some m ∧ m - k ≤ immCap) →
      pass2 immCap code = .error (.jumpRangeOverflow i)) ∧
  (∀ n : Nat,
    pass2 (n + 1) (.condLeft 0 :: (List.replicate n (.incWord 0) ++ [.condRight 0])) =
      .ok (.condLeft (n + 1) :: (List.replicate n (.incWord 0) ++ [.condRight (n + 1)])) ∧
    pass2 n (.condLeft 0 :: (List.replicate n (.incWord 0) ++ [.condRight 0])) = .error (.jumpRangeOverflow 0))

/-- R80, R81 (decision D18 for the index): if every CondLeft has a match within IMM_CAP, the first CondRight that none of
them matches fails the translation. -/
def Obligations.StrayCondRightIsReported : Prop :=
  ∀ (immCap j : Nat) (code : List Instr),
    (∀ k, kindAt code k .opens = true → ∃ m, matchOf code k = some m ∧ m - k ≤ immCap) →
    kindAt code j .closes = true → (∀ k, kindAt code k .opens = true → matchOf code k ≠ some j) →
    (∀ m < j, kindAt code m .closes = true → ∃ k, kindAt code k .opens = true ∧ matchOf code k = some m) →
      pass2 immCap code = .error (.unbalancedBracket j)

/-- R77, the symmetry law: pass 2 writes one distance into both brackets of every pair and changes nothing else. -/
def Obligations.BracketDistancesAreSymmetric : Prop :=
  ∀ (immCap : Nat) (code resolved : List Instr), pass2 immCap code = .ok resolved →
    resolved.length = code.length ∧
    (∀ k, kindAt code k .plain = true → resolved[k]? = code[k]?) ∧
    (∀ i, kindAt code i .opens = true → ∃ j, matchOf code i = some j ∧ j - i ≤ immCap ∧
      resolved[i]? = some (.condLeft (j - i)) ∧ resolved[j]? = some (.condRight (j - i))) ∧
    (∀ j, kindAt code j .closes = true → ∃ i, kindAt code i .opens = true ∧ matchOf code i = some j)

/-- R83 (a), R82: every translated Program is well formed, with every immediate in range. -/
def Obligations.TranslatedProgramsAreWellFormed : Prop :=
  ∀ (immBits : Nat) (src : List Byte) (code : List Instr), translateSource immBits src = .ok code →
    wellFormedProgram code = true ∧ ∀ i ∈ code, i.wf immBits = true

/-- R83 (b), (c), (d): pointer moves of a translated Program have an immediate of at least 1, no two adjacent ones are of
one direction, and the other instructions without a bracket carry immediate 0. -/
def Obligations.TranslatedProgramsAreFolded : Prop :=
  ∀ (immBits : Nat) (src : List Byte) (code : List Instr), translateSource immBits src = .ok code →
    (∀ i ∈ code, i.isPointerMove = true → 1 ≤ i.imm) ∧
    (∀ i ∈ code, i.canonical = true) ∧
    (∀ k m n, code[k]? = some (.addPtr m) → code[k + 1]? ≠ some (.addPtr n)) ∧
    (∀ k m n, code[k]? = some (.subPtr m) → code[k + 1]? ≠ some (.subPtr n))

/-- R82, R148, R172: a translation error comes instead of any launch; a translated Program launches in every legal
configuration, the program store then decodes to the Translator's Program, and with bounds checking on it runs for any
number of steps (through a hold and past a halt: log 6, log 7). -/
def Obligations.TranslatedSourcesRun : Prop :=
  ∀ (c : Config) (src : List Byte) (input : InputChannel),
    (∀ e, translateSource c.immBits src = .error e → bootSource c src input = .error e) ∧
    (∀ code, translateSource c.immBits src = .ok code → LegalConfig c code.length →
      ∃ s, bootSource c src input = .ok (.next s) ∧ codeOf s.config s.program = code ∧ s.Launched ∧
        (c.boundsCheck = true → ∀ n, ∃ t, Runs n s t))

/-- R70, the two readings: the scan at every index accepts a Program exactly when its brackets form a balanced bracket
string with the distance to its partner in each. -/
def Obligations.ScanAndBalanceAgree : Prop :=
  ∀ code : List Instr, wellFormedProgram code = true ↔ bracketsBalance 0 [] code = true

/-! ### The sink -/

/-- R124 (decision D14; byte values of the digits presumed, log 15): in numeric mode the sink writes, for each value in turn,
its decimal digits, most significant first, without leading zeros, and one space; in ascii mode the value itself. The count
line of the diagnostics configuration comes after the run: there is none before the halt, and after it it names the final
`step_count`, as a move of the host finds and leaves it (HaltedCoreStaysHalted; log 18). -/
def Obligations.SinkRendersEachValueInTurn : Prop :=
  (∀ (b : Bool) (vs ws : List Byte), render b (vs ++ ws) = render b vs ++ render b ws) ∧
  (∀ vs : List Byte, render true vs = vs) ∧
  (∀ v : Byte, ∃ digits : List Byte, render false [v] = digits ++ [0x20] ∧ digits ≠ [] ∧
    (∀ d ∈ digits, 0x30 ≤ d.toNat ∧ d.toNat ≤ 0x39) ∧
    (digits.head? = some 0x30 → digits = [0x30]) ∧
    digits.foldl (fun n d => 10 * n + (d.toNat - 0x30)) 0 = v.toNat) ∧
  (∀ s : State, s.haltedAs = none → s.rendered = render s.config.asciiOutput s.output) ∧
  (∀ s : State, s.halted = false → s.countLine = none) ∧
  (∀ s : State, s.haltedAs = none → s.halted = true →
    (s.config.boundsCheck = true ∧ s.config.stepCeiling ≠ none →
      s.countLine = some ("instructions executed: " ++ toString s.stepCount)) ∧
    (¬ (s.config.boundsCheck = true ∧ s.config.stepCeiling ≠ none) → s.countLine = none))
end

