-- ==== Sys2Proof/Laws/Decode.lean ====
section
/-! SUPPORT. The fields of an encoded word and of a decoded instruction, one lemma each. -/

namespace Sys2Proof

theorem Instr.opc_lt (i : Instr) : i.opc < 8 := by cases i <;> simp [Instr.opc]

/-- The two fields do not overlap: the encoder's `|` is a sum. -/
theorem encode_eq (i : Instr) : encode i = i.imm * 8 + i.opc := by
  unfold encode opcBits
  rw [← Nat.shiftLeft_add_eq_or_of_lt (show i.opc < 2 ^ 3 from i.opc_lt), Nat.shiftLeft_eq]

theorem opcField_eq (w : Nat) : opcField w = w % 8 := rfl

theorem immField_eq (immBits : Nat) (w : Nat) : immField immBits w = w / 8 % 2 ^ immBits := rfl

theorem opcField_lt (w : Nat) : opcField w < 8 := Nat.mod_lt _ (by decide)

theorem opcField_encode (i : Instr) : opcField (encode i) = i.opc := by
  have := i.opc_lt
  rw [opcField_eq, encode_eq]
  omega

theorem immField_encode (immBits : Nat) (i : Instr) : immField immBits (encode i) = i.imm % 2 ^ immBits := by
  have := i.opc_lt
  rw [immField_eq, encode_eq, show (i.imm * 8 + i.opc) / 8 = i.imm by omega]

theorem Instr.wf_iff (immBits : Nat) (i : Instr) : i.wf immBits = true ↔ i.imm < 2 ^ immBits := by
  have : 0 < 2 ^ immBits := Nat.two_pow_pos immBits
  rw [Instr.wf, decide_eq_true_eq, immCapOf]
  omega

theorem instrOf_imm {opc : Nat} (h : opc < 8) (imm : Nat) : (instrOf opc imm).imm = imm := by
  interval_cases opc <;> rfl

theorem instrOf_opc {opc : Nat} (h : opc < 8) (imm : Nat) : (instrOf opc imm).opc = opc := by
  interval_cases opc <;> rfl

theorem instrOf_opc_imm (i : Instr) : instrOf i.opc i.imm = i := by cases i <;> rfl

theorem decode_imm (immBits : Nat) (w : Nat) : (decode immBits w).imm = immField immBits w :=
  instrOf_imm (opcField_lt w) _

theorem decode_opc (immBits : Nat) (w : Nat) : (decode immBits w).opc = opcField w :=
  instrOf_opc (opcField_lt w) _

/-- Every decoded immediate is in range (R63). -/
theorem decode_imm_lt (immBits : Nat) (w : Nat) : (decode immBits w).imm < 2 ^ immBits := by
  rw [decode_imm, immField_eq]
  exact Nat.mod_lt _ (Nat.two_pow_pos immBits)

end Sys2Proof
end

