-- ==== Sys2Proof/Laws/Memory.lean ====
section
/-! SUPPORT. The laws of the tape: a read after a write, the canonical form, the cells that exist, and that canonical
contents with the same reads are the same data. -/

namespace Sys2Proof.Machine

@[simp] theorem Memory.read_nil (a : Nat) : Memory.read [] a = Memory.blank := rfl

theorem Memory.read_cons (b : Nat) (v : Byte) (rest : Memory) (a : Nat) :
    Memory.read ((b, v) :: rest) a = if a = b then v else Memory.read rest a := rfl

theorem Memory.wfFrom_cons (lo a : Nat) (v : Byte) (rest : Memory) :
    Memory.wfFrom lo ((a, v) :: rest) = true ↔
      lo ≤ a ∧ v ≠ Memory.blank ∧ Memory.wfFrom (a + 1) rest = true := by
  simp [Memory.wfFrom, and_assoc]

theorem Memory.wfFrom_mono {lo hi : Nat} (h : lo ≤ hi) {m : Memory} (hm : Memory.wfFrom hi m = true) :
    Memory.wfFrom lo m = true := by
  cases m with
  | nil => rfl
  | cons c rest =>
    obtain ⟨a, v⟩ := c
    rw [Memory.wfFrom_cons] at hm ⊢
    exact ⟨h.trans hm.1, hm.2⟩

/-- Below its first address a canonical memory reads as unlisted. -/
theorem Memory.read_of_lt {lo a : Nat} {m : Memory} (hm : Memory.wfFrom lo m = true) (h : a < lo) :
    m.read a = Memory.blank := by
  induction m generalizing lo with
  | nil => rfl
  | cons c rest ih =>
    obtain ⟨b, v⟩ := c
    rw [Memory.wfFrom_cons] at hm
    rw [Memory.read_cons, if_neg (by omega)]
    exact ih hm.2.2 (by omega)

theorem Memory.read_list (a : Nat) (v : Byte) (rest : Memory) (b : Nat)
    (h : rest.read a = Memory.blank) :
    (Memory.list a v rest).read b = if b = a then v else rest.read b := by
  unfold Memory.list
  split
  · next hv => split <;> simp_all
  · rw [Memory.read_cons]

/-- A read of any cell after a write of cell `a` to canonical contents (R41). -/
theorem Memory.read_write_from {lo : Nat} {m : Memory} (hm : Memory.wfFrom lo m = true) (a : Nat) (v : Byte)
    (b : Nat) : (m.write a v).read b = if b = a then v else m.read b := by
  induction m generalizing lo with
  | nil => exact Memory.read_list a v [] b rfl
  | cons c rest ih =>
    obtain ⟨k, w⟩ := c
    have hm' := (Memory.wfFrom_cons lo k w rest).1 hm
    unfold Memory.write
    split
    · next hlt =>
      apply Memory.read_list
      rw [Memory.read_cons, if_neg (by omega)]
      exact Memory.read_of_lt hm'.2.2 (by omega)
    · split
      · next _ heq =>
        subst heq
        rw [Memory.read_list a v rest b (Memory.read_of_lt hm'.2.2 (by omega)), Memory.read_cons]
        split <;> simp_all
      · next hlt hne =>
        rw [Memory.read_cons, Memory.read_cons, ih hm'.2.2]
        split
        · next hb => rw [if_neg (by omega)]
        · rfl

theorem Memory.read_write {m : Memory} (hm : m.wf = true) (a : Nat) (v : Byte) (b : Nat) :
    (m.write a v).read b = if b = a then v else m.read b :=
  Memory.read_write_from (lo := 0) hm a v b

/-- The written cell reads as written, whatever the contents' form. -/
theorem Memory.read_write_of_ne {m : Memory} (a : Nat) (v : Byte) {b : Nat} (h : b ≠ a) :
    (m.write a v).read b = m.read b := by
  induction m with
  | nil =>
    unfold Memory.write Memory.list
    split
    · rfl
    · rw [Memory.read_cons, if_neg h]
  | cons c rest ih =>
    obtain ⟨k, w⟩ := c
    unfold Memory.write
    split
    · unfold Memory.list
      split
      · rfl
      · rw [Memory.read_cons, if_neg h]
    · split
      · next _ heq =>
        subst heq
        unfold Memory.list
        split
        · rw [Memory.read_cons, if_neg h]
        · rw [Memory.read_cons, if_neg h, Memory.read_cons, if_neg h]
      · rw [Memory.read_cons, Memory.read_cons, ih]

theorem Memory.list_wfFrom {lo a : Nat} {v : Byte} {rest : Memory} (h : lo ≤ a)
    (hr : Memory.wfFrom (a + 1) rest = true) : Memory.wfFrom lo (Memory.list a v rest) = true := by
  unfold Memory.list
  split
  · exact Memory.wfFrom_mono (by omega) hr
  · next hv => exact (Memory.wfFrom_cons ..).2 ⟨h, hv, hr⟩

theorem Memory.write_wfFrom {lo a : Nat} {m : Memory} (v : Byte) (h : lo ≤ a)
    (hm : Memory.wfFrom lo m = true) : Memory.wfFrom lo (m.write a v) = true := by
  induction m generalizing lo with
  | nil => exact Memory.list_wfFrom h rfl
  | cons c rest ih =>
    obtain ⟨k, w⟩ := c
    have hm' := (Memory.wfFrom_cons lo k w rest).1 hm
    unfold Memory.write
    split
    · next hlt => exact Memory.list_wfFrom h ((Memory.wfFrom_cons ..).2 ⟨hlt, hm'.2⟩)
    · split
      · next _ heq =>
        subst heq
        exact Memory.list_wfFrom h hm'.2.2
      · next hlt hne =>
        exact (Memory.wfFrom_cons ..).2 ⟨hm'.1, hm'.2.1, ih (by omega) hm'.2.2⟩

/-- A write keeps the canonical form. -/
theorem Memory.write_wf {m : Memory} (hm : m.wf = true) (a : Nat) (v : Byte) : (m.write a v).wf = true :=
  Memory.write_wfFrom v (Nat.zero_le a) hm

theorem Memory.list_within {size a : Nat} {v : Byte} {rest : Memory} (h : a < size)
    (hr : rest.within size = true) : (Memory.list a v rest).within size = true := by
  unfold Memory.list
  split
  · exact hr
  · simpa [Memory.within, h] using hr

/-- A write of a cell that exists lists only cells that exist. -/
theorem Memory.write_within {size a : Nat} {m : Memory} (v : Byte) (h : a < size)
    (hm : m.within size = true) : (m.write a v).within size = true := by
  induction m with
  | nil => exact Memory.list_within h rfl
  | cons c rest ih =>
    obtain ⟨k, w⟩ := c
    have hk : k < size ∧ Memory.within size rest = true := by simpa [Memory.within] using hm
    unfold Memory.write
    split
    · exact Memory.list_within h hm
    · split
      · exact Memory.list_within h hk.2
      · simpa [Memory.within, hk.1] using ih hk.2

/-- A cell outside the tape reads as unlisted. -/
theorem Memory.read_of_within {size a : Nat} {m : Memory} (hm : m.within size = true) (h : size ≤ a) :
    m.read a = Memory.blank := by
  induction m with
  | nil => rfl
  | cons c rest ih =>
    obtain ⟨k, w⟩ := c
    have hk : k < size ∧ Memory.within size rest = true := by simpa [Memory.within] using hm
    rw [Memory.read_cons, if_neg (by omega), ih hk.2]

theorem Memory.eq_of_read_eq_from {lo : Nat} {m n : Memory} (hm : Memory.wfFrom lo m = true)
    (hn : Memory.wfFrom lo n = true) (h : ∀ a, m.read a = n.read a) : m = n := by
  induction m generalizing lo n with
  | nil =>
    cases n with
    | nil => rfl
    | cons c rest =>
      obtain ⟨a, v⟩ := c
      have := h a
      rw [Memory.read_cons, if_pos rfl] at this
      exact absurd this.symm ((Memory.wfFrom_cons ..).1 hn).2.1
  | cons c rest ih =>
    obtain ⟨a, v⟩ := c
    have hm' := (Memory.wfFrom_cons ..).1 hm
    cases n with
    | nil =>
      have := h a
      rw [Memory.read_cons, if_pos rfl] at this
      exact absurd this hm'.2.1
    | cons d rest' =>
      obtain ⟨b, w⟩ := d
      have hn' := (Memory.wfFrom_cons ..).1 hn
      have hab : a = b := by
        rcases Nat.lt_trichotomy a b with hlt | heq | hlt
        · have := h a
          rw [Memory.read_cons, if_pos rfl, Memory.read_cons, if_neg (by omega),
            Memory.read_of_lt hn'.2.2 (by omega)] at this
          exact absurd this hm'.2.1
        · exact heq
        · have := h b
          rw [Memory.read_cons, if_neg (by omega), Memory.read_cons, if_pos rfl,
            Memory.read_of_lt hm'.2.2 (by omega)] at this
          exact absurd this.symm hn'.2.1
      subst hab
      have hv : v = w := by simpa [Memory.read_cons] using h a
      subst hv
      have hrest : rest = rest' := by
        refine ih hm'.2.2 hn'.2.2 fun k => ?_
        rcases eq_or_ne k a with rfl | hk
        · rw [Memory.read_of_lt hm'.2.2 (by omega), Memory.read_of_lt hn'.2.2 (by omega)]
        · simpa [Memory.read_cons, hk] using h k
      rw [hrest]

/-- Canonical contents that read the same are the same data. -/
theorem Memory.eq_of_read_eq {m n : Memory} (hm : m.wf = true) (hn : n.wf = true)
    (h : ∀ a, m.read a = n.read a) : m = n :=
  Memory.eq_of_read_eq_from hm hn h

end Sys2Proof.Machine
end

