-- ==== Sys2Proof/Laws/State.lean ====
section
/-! SUPPORT. One lemma per field for each named update of the state, so that no later proof unfolds a record update; and the
fields that an input answer leaves alone. -/

namespace Sys2Proof.Machine

/-! ### `setCell` -/

@[simp] theorem State.setCell_ip (s : State) (v : Byte) : (s.setCell v).ip = s.ip := rfl
@[simp] theorem State.setCell_dp (s : State) (v : Byte) : (s.setCell v).dp = s.dp := rfl
@[simp] theorem State.setCell_stepCount (s : State) (v : Byte) : (s.setCell v).stepCount = s.stepCount := rfl
@[simp] theorem State.setCell_tape (s : State) (v : Byte) : (s.setCell v).tape = s.tape.write s.dp v := rfl
@[simp] theorem State.setCell_program (s : State) (v : Byte) : (s.setCell v).program = s.program := rfl
@[simp] theorem State.setCell_config (s : State) (v : Byte) : (s.setCell v).config = s.config := rfl
@[simp] theorem State.setCell_inputRequest (s : State) (v : Byte) : (s.setCell v).inputRequest = s.inputRequest := rfl
@[simp] theorem State.setCell_input (s : State) (v : Byte) : (s.setCell v).input = s.input := rfl
@[simp] theorem State.setCell_output (s : State) (v : Byte) : (s.setCell v).output = s.output := rfl
@[simp] theorem State.setCell_haltedAs (s : State) (v : Byte) : (s.setCell v).haltedAs = s.haltedAs := rfl
@[simp] theorem State.setCell_progLen (s : State) (v : Byte) : (s.setCell v).progLen = s.progLen := rfl

/-! ### `advance` -/

@[simp] theorem State.advance_ip (s : State) : s.advance.ip = s.ip + 1 := rfl
@[simp] theorem State.advance_dp (s : State) : s.advance.dp = s.dp := rfl
@[simp] theorem State.advance_stepCount (s : State) : s.advance.stepCount = s.stepCount + 1 := rfl
@[simp] theorem State.advance_tape (s : State) : s.advance.tape = s.tape := rfl
@[simp] theorem State.advance_program (s : State) : s.advance.program = s.program := rfl
@[simp] theorem State.advance_config (s : State) : s.advance.config = s.config := rfl
@[simp] theorem State.advance_inputRequest (s : State) : s.advance.inputRequest = s.inputRequest := rfl
@[simp] theorem State.advance_input (s : State) : s.advance.input = s.input := rfl
@[simp] theorem State.advance_output (s : State) : s.advance.output = s.output := rfl
@[simp] theorem State.advance_haltedAs (s : State) : s.advance.haltedAs = s.haltedAs := rfl
@[simp] theorem State.advance_progLen (s : State) : s.advance.progLen = s.progLen := rfl

/-! ### `answered` -/

@[simp] theorem State.answered_ip (s : State) (ch : InputChannel) : (s.answered ch).ip = s.ip := rfl
@[simp] theorem State.answered_dp (s : State) (ch : InputChannel) : (s.answered ch).dp = s.dp := rfl
@[simp] theorem State.answered_stepCount (s : State) (ch : InputChannel) : (s.answered ch).stepCount = s.stepCount := rfl
@[simp] theorem State.answered_tape (s : State) (ch : InputChannel) : (s.answered ch).tape = s.tape := rfl
@[simp] theorem State.answered_program (s : State) (ch : InputChannel) : (s.answered ch).program = s.program := rfl
@[simp] theorem State.answered_config (s : State) (ch : InputChannel) : (s.answered ch).config = s.config := rfl
@[simp] theorem State.answered_inputRequest (s : State) (ch : InputChannel) : (s.answered ch).inputRequest = false := rfl
@[simp] theorem State.answered_input (s : State) (ch : InputChannel) : (s.answered ch).input = ch := rfl
@[simp] theorem State.answered_output (s : State) (ch : InputChannel) : (s.answered ch).output = s.output := rfl
@[simp] theorem State.answered_haltedAs (s : State) (ch : InputChannel) : (s.answered ch).haltedAs = s.haltedAs := rfl
@[simp] theorem State.answered_progLen (s : State) (ch : InputChannel) : (s.answered ch).progLen = s.progLen := rfl

/-! ### `emit` -/

@[simp] theorem State.emit_ip (s : State) (v : Byte) : (s.emit v).ip = s.ip := rfl
@[simp] theorem State.emit_dp (s : State) (v : Byte) : (s.emit v).dp = s.dp := rfl
@[simp] theorem State.emit_stepCount (s : State) (v : Byte) : (s.emit v).stepCount = s.stepCount := rfl
@[simp] theorem State.emit_tape (s : State) (v : Byte) : (s.emit v).tape = s.tape := rfl
@[simp] theorem State.emit_program (s : State) (v : Byte) : (s.emit v).program = s.program := rfl
@[simp] theorem State.emit_config (s : State) (v : Byte) : (s.emit v).config = s.config := rfl
@[simp] theorem State.emit_inputRequest (s : State) (v : Byte) : (s.emit v).inputRequest = s.inputRequest := rfl
@[simp] theorem State.emit_input (s : State) (v : Byte) : (s.emit v).input = s.input := rfl
@[simp] theorem State.emit_output (s : State) (v : Byte) : (s.emit v).output = s.output ++ [v] := rfl
@[simp] theorem State.emit_haltedAs (s : State) (v : Byte) : (s.emit v).haltedAs = s.haltedAs := rfl
@[simp] theorem State.emit_progLen (s : State) (v : Byte) : (s.emit v).progLen = s.progLen := rfl

/-! ### `receive`: only the tape may change -/

@[simp] theorem State.receive_ip (s : State) (r : InputAnswer) : (s.receive r).ip = s.ip := by
  unfold State.receive
  split
  · rfl
  · split <;> rfl

@[simp] theorem State.receive_dp (s : State) (r : InputAnswer) : (s.receive r).dp = s.dp := by
  unfold State.receive
  split
  · rfl
  · split <;> rfl

@[simp] theorem State.receive_stepCount (s : State) (r : InputAnswer) : (s.receive r).stepCount = s.stepCount := by
  unfold State.receive
  split
  · rfl
  · split <;> rfl

@[simp] theorem State.receive_program (s : State) (r : InputAnswer) : (s.receive r).program = s.program := by
  unfold State.receive
  split
  · rfl
  · split <;> rfl

@[simp] theorem State.receive_config (s : State) (r : InputAnswer) : (s.receive r).config = s.config := by
  unfold State.receive
  split
  · rfl
  · split <;> rfl

@[simp] theorem State.receive_inputRequest (s : State) (r : InputAnswer) : (s.receive r).inputRequest = s.inputRequest := by
  unfold State.receive
  split
  · rfl
  · split <;> rfl

@[simp] theorem State.receive_input (s : State) (r : InputAnswer) : (s.receive r).input = s.input := by
  unfold State.receive
  split
  · rfl
  · split <;> rfl

@[simp] theorem State.receive_output (s : State) (r : InputAnswer) : (s.receive r).output = s.output := by
  unfold State.receive
  split
  · rfl
  · split <;> rfl

@[simp] theorem State.receive_haltedAs (s : State) (r : InputAnswer) : (s.receive r).haltedAs = s.haltedAs := by
  unfold State.receive
  split
  · rfl
  · split <;> rfl

@[simp] theorem State.receive_progLen (s : State) (r : InputAnswer) : (s.receive r).progLen = s.progLen := by
  simp [State.progLen]

/-- An answer writes the current cell or nothing (R120, R122). -/
theorem State.receive_eq (s : State) (r : InputAnswer) :
    s.receive r = s ∨ ∃ v, s.receive r = s.setCell v := by
  unfold State.receive
  split
  · exact .inr ⟨_, rfl⟩
  · split
    · exact .inl rfl
    · exact .inr ⟨_, rfl⟩

/-! ### `recordHalt` (R96) -/

@[simp] theorem State.recordHalt_ip (s : State) : s.recordHalt.ip = s.ip := rfl
@[simp] theorem State.recordHalt_dp (s : State) : s.recordHalt.dp = s.dp := rfl
@[simp] theorem State.recordHalt_stepCount (s : State) : s.recordHalt.stepCount = s.stepCount := rfl
@[simp] theorem State.recordHalt_tape (s : State) : s.recordHalt.tape = s.tape := rfl
@[simp] theorem State.recordHalt_program (s : State) : s.recordHalt.program = s.program := rfl
@[simp] theorem State.recordHalt_config (s : State) : s.recordHalt.config = s.config := rfl
@[simp] theorem State.recordHalt_inputRequest (s : State) : s.recordHalt.inputRequest = s.inputRequest := rfl
@[simp] theorem State.recordHalt_input (s : State) : s.recordHalt.input = s.input := rfl
@[simp] theorem State.recordHalt_output (s : State) : s.recordHalt.output = s.output := rfl
@[simp] theorem State.recordHalt_progLen (s : State) : s.recordHalt.progLen = s.progLen := rfl
@[simp] theorem State.recordHalt_guard (s : State) : s.recordHalt.guard = s.guard := rfl
@[simp] theorem State.recordHalt_haltedAs (s : State) : s.recordHalt.haltedAs = s.haltRecord := rfl

/-! ### `hostMove` (R172, R173): the registers, the tape and the output are as before -/

/-- A move gives the state with another Program, configuration, input and record of the halt. -/
theorem State.hostMove_eq (s : State) (m : HostMove) :
    ∃ words c input halt, s.hostMove m =
      { s with program := words, config := c, input := input, haltedAs := halt } := by
  unfold State.hostMove
  split
  · cases m <;> exact ⟨_, _, _, _, rfl⟩
  · exact ⟨s.program, s.config, s.input, s.haltedAs, rfl⟩

@[simp] theorem State.hostMove_ip (s : State) (m : HostMove) : (s.hostMove m).ip = s.ip := by
  obtain ⟨words, c, input, halt, h⟩ := s.hostMove_eq m
  rw [h]

@[simp] theorem State.hostMove_dp (s : State) (m : HostMove) : (s.hostMove m).dp = s.dp := by
  obtain ⟨words, c, input, halt, h⟩ := s.hostMove_eq m
  rw [h]

@[simp] theorem State.hostMove_stepCount (s : State) (m : HostMove) : (s.hostMove m).stepCount = s.stepCount := by
  obtain ⟨words, c, input, halt, h⟩ := s.hostMove_eq m
  rw [h]

@[simp] theorem State.hostMove_tape (s : State) (m : HostMove) : (s.hostMove m).tape = s.tape := by
  obtain ⟨words, c, input, halt, h⟩ := s.hostMove_eq m
  rw [h]

@[simp] theorem State.hostMove_inputRequest (s : State) (m : HostMove) : (s.hostMove m).inputRequest = s.inputRequest := by
  obtain ⟨words, c, input, halt, h⟩ := s.hostMove_eq m
  rw [h]

@[simp] theorem State.hostMove_output (s : State) (m : HostMove) : (s.hostMove m).output = s.output := by
  obtain ⟨words, c, input, halt, h⟩ := s.hostMove_eq m
  rw [h]

/-- On a halted core the halt is on record afterwards. -/
theorem State.hostMove_haltedAs {s : State} (h : s.halted = true) (m : HostMove) :
    (s.hostMove m).haltedAs = some { exitClass := s.haltClass, config := s.runConfig } := by
  have hr : s.haltRecord = some { exitClass := s.haltClass, config := s.runConfig } := if_pos h
  unfold State.hostMove
  rw [if_pos h, ← hr]
  cases m <;> rfl

/-- On a halted core the class and the configuration of the run are as before. -/
theorem State.hostMove_haltClass {s : State} (h : s.halted = true) (m : HostMove) :
    (s.hostMove m).haltClass = s.haltClass := by
  simp [State.haltClass, State.hostMove_haltedAs h]

theorem State.hostMove_runConfig (s : State) (m : HostMove) : (s.hostMove m).runConfig = s.runConfig := by
  cases h : s.halted with
  | true => simp [State.runConfig, State.hostMove_haltedAs h]
  | false => simp [State.hostMove, h]

/-- On a running core the host has no move (R174). -/
theorem State.hostMove_of_running {s : State} (h : s.halted = false) (m : HostMove) : s.hostMove m = s := by
  simp [State.hostMove, h]

/-! ### What the environment does: its moves change the input capability only -/

@[simp] theorem State.endInput_input (s : State) : s.endInput.input = { s.input with exhausted := true } := rfl

theorem State.offerInput_eq (s : State) (v : Byte) :
    s.offerInput v = s ∨
      s.input.exhausted = false ∧ s.offerInput v = { s with input := { s.input with pending := s.input.pending ++ [v] } } := by
  unfold State.offerInput
  cases h : s.input.exhausted <;> simp

@[simp] theorem State.answers_nil (s : State) : s.answers [] = s := rfl

@[simp] theorem State.answers_cons (s : State) (m : InputMove) (moves : List InputMove) :
    s.answers (m :: moves) = (s.answerMove m).answers moves := rfl

/-- A move gives the state with another input channel. -/
theorem State.answerMove_eq (s : State) (m : InputMove) : ∃ ch, s.answerMove m = { s with input := ch } := by
  cases m with
  | offer v =>
    rcases s.offerInput_eq v with h | ⟨-, h⟩
    · exact ⟨s.input, h⟩
    · exact ⟨_, h⟩
  | endOfInput => exact ⟨_, rfl⟩

theorem State.answers_eq (s : State) (moves : List InputMove) : ∃ ch, s.answers moves = { s with input := ch } := by
  induction moves generalizing s with
  | nil => exact ⟨s.input, rfl⟩
  | cons m moves ih =>
    obtain ⟨ch, h⟩ := s.answerMove_eq m
    obtain ⟨ch', h'⟩ := ih (s.answerMove m)
    exact ⟨ch', by rw [State.answers_cons, h', h]⟩

@[simp] theorem State.answers_ip (s : State) (moves : List InputMove) : (s.answers moves).ip = s.ip := by
  obtain ⟨ch, h⟩ := s.answers_eq moves
  rw [h]

@[simp] theorem State.answers_dp (s : State) (moves : List InputMove) : (s.answers moves).dp = s.dp := by
  obtain ⟨ch, h⟩ := s.answers_eq moves
  rw [h]

@[simp] theorem State.answers_stepCount (s : State) (moves : List InputMove) : (s.answers moves).stepCount = s.stepCount := by
  obtain ⟨ch, h⟩ := s.answers_eq moves
  rw [h]

@[simp] theorem State.answers_tape (s : State) (moves : List InputMove) : (s.answers moves).tape = s.tape := by
  obtain ⟨ch, h⟩ := s.answers_eq moves
  rw [h]

@[simp] theorem State.answers_program (s : State) (moves : List InputMove) : (s.answers moves).program = s.program := by
  obtain ⟨ch, h⟩ := s.answers_eq moves
  rw [h]

@[simp] theorem State.answers_config (s : State) (moves : List InputMove) : (s.answers moves).config = s.config := by
  obtain ⟨ch, h⟩ := s.answers_eq moves
  rw [h]

@[simp] theorem State.answers_inputRequest (s : State) (moves : List InputMove) : (s.answers moves).inputRequest = s.inputRequest := by
  obtain ⟨ch, h⟩ := s.answers_eq moves
  rw [h]

@[simp] theorem State.answers_output (s : State) (moves : List InputMove) : (s.answers moves).output = s.output := by
  obtain ⟨ch, h⟩ := s.answers_eq moves
  rw [h]

@[simp] theorem State.answers_haltedAs (s : State) (moves : List InputMove) : (s.answers moves).haltedAs = s.haltedAs := by
  obtain ⟨ch, h⟩ := s.answers_eq moves
  rw [h]

@[simp] theorem State.answers_progLen (s : State) (moves : List InputMove) : (s.answers moves).progLen = s.progLen := by
  obtain ⟨ch, h⟩ := s.answers_eq moves
  rw [h]
  rfl

@[simp] theorem State.answers_guard (s : State) (moves : List InputMove) : (s.answers moves).guard = s.guard := by
  obtain ⟨ch, h⟩ := s.answers_eq moves
  rw [h]
  rfl

@[simp] theorem State.answers_halted (s : State) (moves : List InputMove) : (s.answers moves).halted = s.halted := by
  obtain ⟨ch, h⟩ := s.answers_eq moves
  rw [h]
  rfl

end Sys2Proof.Machine
end

