-- ==== Sys2Proof/Laws/Ops.lean ====
section
/-! SUPPORT. For each shared operation one lemma that says once everything it can do; then what an instruction and a step can
do, which later proofs cite instead of unfolding them. -/

namespace Sys2Proof.Machine

/-! ### The guard, the fetch -/

theorem State.belowCeiling_iff (s : State) :
    s.belowCeiling = true ↔ ∀ n, s.config.stepCeiling = some n → s.stepCount < n := by
  unfold State.belowCeiling
  split <;> simp_all

theorem State.boundsHold_iff (s : State) :
    s.boundsHold = true ↔ (s.config.boundsCheck = true → s.dp < s.config.tapeSize) := by
  unfold State.boundsHold
  cases s.config.boundsCheck <;> simp

theorem State.guard_iff (s : State) :
    s.guard = true ↔ s.ip < s.progLen ∧ s.belowCeiling = true ∧ s.boundsHold = true := by
  simp [State.guard, and_assoc]

theorem State.running_iff (s : State) : s.running = true ↔ s.haltedAs = none ∧ s.guard = true := by
  simp [State.running]

theorem State.halted_iff (s : State) : s.halted = true ↔ s.running = false := by simp [State.halted]

/-- Without a recorded halt the core is halted exactly when the guard is false (R96). -/
theorem State.halted_iff_guard {s : State} (h : s.haltedAs = none) : s.halted = true ↔ s.guard = false := by
  simp [State.halted, State.running, h]

theorem State.exitClass_eq_some (s : State) (c : ExitClass) :
    s.exitClass = some c ↔ s.halted = true ∧ s.haltClass = c := by
  unfold State.exitClass
  cases s.halted <;> simp

theorem State.current_eq_some (s : State) (i : Instr) :
    s.current = some i ↔
      s.running = true ∧ ∃ w, s.program[s.ip]? = some w ∧ decode s.config.immBits w = i := by
  unfold State.current State.fetch
  cases s.running <;> simp

theorem State.current_eq_none (s : State) : s.current = none ↔ s.running = false := by
  unfold State.current State.fetch
  cases h : s.running
  · simp
  · simpa [State.progLen] using ((State.guard_iff s).1 ((State.running_iff s).1 h).2).1

/-- A recorded halt is the halt, with the recorded class (R96). -/
theorem State.halted_of_recorded {s : State} {r : HaltRecord} (h : s.haltedAs = some r) :
    s.halted = true ∧ s.exitClass = some r.exitClass := by
  have hh : s.halted = true := by simp [State.halted, State.running, h]
  exact ⟨hh, (State.exitClass_eq_some ..).2 ⟨hh, by simp [State.haltClass, h]⟩⟩

/-- An instruction to execute means that no halt is recorded and the guard holds. -/
theorem State.of_current {s : State} {i : Instr} (h : s.current = some i) : s.haltedAs = none ∧ s.guard = true :=
  (State.running_iff s).1 ((State.current_eq_some s i).1 h).1

/-- A step that has a meaning and an instruction to execute has a legal configuration. -/
theorem State.legal_of_current {s : State} {i : Instr} (hm : s.Meaningful) (h : s.current = some i) :
    LegalConfig s.config s.progLen := by
  rcases hm with hm | hm
  · simp [(State.of_current h).1] at hm
  · exact hm

/-! ### The shared operations -/

theorem complete_eq_next (s t : State) : complete s = .next t ↔ t = s.advance := by
  simp [complete, eq_comm]

/-- Behind the gate an access happens on the tape, or is the fault of R52. -/
theorem onTape_cases (s : State) (effect : Result) :
    (s.dp < s.config.tapeSize ∧ onTape s effect = effect) ∨
      (s.config.tapeSize ≤ s.dp ∧ onTape s effect = .fault (.uncheckedTapeAccess s.ip s.dp)) := by
  unfold onTape
  split <;> simp_all

theorem onTape_of_lt {s : State} (h : s.dp < s.config.tapeSize) (effect : Result) : onTape s effect = effect := by
  simp [onTape, h]

theorem onTape_of_le {s : State} (h : s.config.tapeSize ≤ s.dp) (effect : Result) :
    onTape s effect = .fault (.uncheckedTapeAccess s.ip s.dp) := by
  simp [onTape, Nat.not_lt.2 h]

theorem onTape_eq_next (s : State) (effect : Result) (t : State) :
    onTape s effect = .next t ↔ s.dp < s.config.tapeSize ∧ effect = .next t := by
  unfold onTape
  split <;> simp_all

theorem jumpForward_eq_next (s : State) (d : Nat) (t : State) :
    jumpForward s d = .next t ↔ s.ip + d < s.progLen ∧ t = State.advance { s with ip := s.ip + d } := by
  unfold jumpForward
  split <;> simp_all [complete, eq_comm]

theorem jumpBack_eq_next (s : State) (d : Nat) (t : State) :
    jumpBack s d = .next t ↔ d ≤ s.ip ∧ t = State.advance { s with ip := s.ip - d } := by
  unfold jumpBack
  split <;> simp_all [complete, eq_comm]

theorem cellIsZero_iff (v : Byte) : cellIsZero v = true ↔ v = 0 := by simp [cellIsZero]

/-- A request is answered with the oldest value, or with exhaustion when none is left, or not at all. -/
theorem InputChannel.request_eq_none (ch : InputChannel) :
    ch.request = none ↔ ch.pending = [] ∧ ch.exhausted = false := by
  unfold InputChannel.request
  split <;> simp_all

theorem InputChannel.request_eq_value (ch ch' : InputChannel) (v : Byte) :
    ch.request = some (.value v, ch') ↔ ∃ rest, ch.pending = v :: rest ∧ ch' = { ch with pending := rest } := by
  unfold InputChannel.request
  split
  · next w rest h =>
    simp only [h, Option.some.injEq, Prod.mk.injEq, InputAnswer.value.injEq, List.cons.injEq]
    constructor
    · rintro ⟨rfl, rfl⟩
      exact ⟨rest, ⟨rfl, rfl⟩, rfl⟩
    · rintro ⟨rest', ⟨rfl, rfl⟩, rfl⟩
      exact ⟨rfl, rfl⟩
  · split <;> simp_all

theorem InputChannel.request_eq_exhausted (ch ch' : InputChannel) :
    ch.request = some (.exhausted, ch') ↔ ch.pending = [] ∧ ch.exhausted = true ∧ ch' = ch := by
  unfold InputChannel.request
  split
  · simp_all
  · rw [eq_comm (a := ch')]
    split <;> simp_all

/-- Whatever the answer, the channel's exhaustion is as before (R122). -/
theorem InputChannel.request_exhausted {ch ch' : InputChannel} {r : InputAnswer}
    (h : ch.request = some (r, ch')) : ch'.exhausted = ch.exhausted := by
  cases r with
  | value v =>
    obtain ⟨rest, -, rfl⟩ := (InputChannel.request_eq_value ..).1 h
    rfl
  | exhausted => rw [((InputChannel.request_eq_exhausted ..).1 h).2.2]

/-! ### What an instruction can do -/

/-- The state an executed instruction advances from: its effect, without the advance (step (3) of R90). -/
inductive Effect (s : State) : Instr → State → Prop where
  | incWord (imm : Nat) : s.dp < s.config.tapeSize → Effect s (.incWord imm) (s.setCell (s.cell + 1))
  | decWord (imm : Nat) : s.dp < s.config.tapeSize → Effect s (.decWord imm) (s.setCell (s.cell - 1))
  | addPtr (imm : Nat) : Effect s (.addPtr imm) { s with dp := pointerUp s.config s.dp imm }
  | subPtr (imm : Nat) : Effect s (.subPtr imm) { s with dp := pointerDown s.config s.dp imm }
  | skip (imm : Nat) : s.dp < s.config.tapeSize → s.cell = 0 → s.ip + imm < s.progLen →
      Effect s (.condLeft imm) { s with ip := s.ip + imm }
  | enter (imm : Nat) : s.dp < s.config.tapeSize → s.cell ≠ 0 → Effect s (.condLeft imm) s
  | back (imm : Nat) : s.dp < s.config.tapeSize → s.cell ≠ 0 → imm ≤ s.ip →
      Effect s (.condRight imm) { s with ip := s.ip - imm }
  | leave (imm : Nat) : s.dp < s.config.tapeSize → s.cell = 0 → Effect s (.condRight imm) s
  | input (imm : Nat) (r : InputAnswer) (ch : InputChannel) : s.dp < s.config.tapeSize →
      s.input.request = some (r, ch) → Effect s (.input imm) ((s.answered ch).receive r)
  | output (imm : Nat) : s.dp < s.config.tapeSize → Effect s (.output imm) (s.emit s.cell)

/-- The hold of an Input: on the tape, and no answer (R121). -/
def Holds (s : State) (i : Instr) : Prop :=
  (∃ imm, i = .input imm) ∧ s.dp < s.config.tapeSize ∧ s.input.request = none

/-- An instruction answers a next state exactly when it has its effect and advances, or is an Input that holds. -/
theorem exec_eq_next (i : Instr) (s t : State) :
    exec i s = .next t ↔
      (∃ u, Effect s i u ∧ t = u.advance) ∨ (Holds s i ∧ t = { s with inputRequest := true }) := by
  constructor
  · intro h
    cases i with
    | incWord imm =>
      obtain ⟨hd, h⟩ := (onTape_eq_next ..).1 h
      exact .inl ⟨_, .incWord imm hd, (complete_eq_next ..).1 h⟩
    | decWord imm =>
      obtain ⟨hd, h⟩ := (onTape_eq_next ..).1 h
      exact .inl ⟨_, .decWord imm hd, (complete_eq_next ..).1 h⟩
    | addPtr imm => exact .inl ⟨_, .addPtr imm, (complete_eq_next ..).1 h⟩
    | subPtr imm => exact .inl ⟨_, .subPtr imm, (complete_eq_next ..).1 h⟩
    | condLeft imm =>
      obtain ⟨hd, h⟩ := (onTape_eq_next ..).1 h
      split at h
      · next hz =>
        obtain ⟨hl, rfl⟩ := (jumpForward_eq_next ..).1 h
        exact .inl ⟨_, .skip imm hd ((cellIsZero_iff _).1 hz) hl, rfl⟩
      · next hz => exact .inl ⟨_, .enter imm hd (by simpa [cellIsZero_iff] using hz), (complete_eq_next ..).1 h⟩
    | condRight imm =>
      obtain ⟨hd, h⟩ := (onTape_eq_next ..).1 h
      split at h
      · next hz => exact .inl ⟨_, .leave imm hd ((cellIsZero_iff _).1 hz), (complete_eq_next ..).1 h⟩
      · next hz =>
        obtain ⟨hl, rfl⟩ := (jumpBack_eq_next ..).1 h
        exact .inl ⟨_, .back imm hd (by simpa [cellIsZero_iff] using hz) hl, rfl⟩
    | input imm =>
      obtain ⟨hd, h⟩ := (onTape_eq_next ..).1 h
      split at h
      · next r ch hr => exact .inl ⟨_, .input imm r ch hd hr, (complete_eq_next ..).1 h⟩
      · next hr =>
        refine .inr ⟨⟨⟨imm, rfl⟩, hd, hr⟩, ?_⟩
        simpa [hold, eq_comm] using h
    | output imm =>
      obtain ⟨hd, h⟩ := (onTape_eq_next ..).1 h
      exact .inl ⟨_, .output imm hd, (complete_eq_next ..).1 h⟩
  · rintro (⟨u, he, rfl⟩ | ⟨⟨⟨imm, rfl⟩, hd, hr⟩, rfl⟩)
    · cases he with
      | incWord imm hd => exact onTape_of_lt hd _
      | decWord imm hd => exact onTape_of_lt hd _
      | addPtr imm => rfl
      | subPtr imm => rfl
      | skip imm hd hz hl => simp [exec, execCondLeft, onTape_of_lt hd, hz, cellIsZero, jumpForward, hl, complete]
      | enter imm hd hz =>
        have hz' : cellIsZero s.cell = false := by simpa [← Bool.not_eq_true, cellIsZero_iff] using hz
        simp [exec, execCondLeft, onTape_of_lt hd, hz', complete]
      | back imm hd hz hl =>
        have hz' : cellIsZero s.cell = false := by simpa [← Bool.not_eq_true, cellIsZero_iff] using hz
        simp [exec, execCondRight, onTape_of_lt hd, hz', jumpBack, hl, complete]
      | leave imm hd hz => simp [exec, execCondRight, onTape_of_lt hd, hz, cellIsZero, complete]
      | input imm r ch hd hr => simp [exec, execInput, onTape_of_lt hd, hr, complete]
      | output imm hd => exact onTape_of_lt hd _
    · simp [exec, execInput, onTape_of_lt hd, hr, hold]

/-- An instruction faults exactly when it accesses the tape through a pointer off it (R52). -/
theorem exec_eq_fault (i : Instr) (s : State) (f : Fault) :
    exec i s = .fault f ↔
      i.accessesTape = true ∧ s.config.tapeSize ≤ s.dp ∧ f = .uncheckedTapeAccess s.ip s.dp := by
  rcases Nat.lt_or_ge s.dp s.config.tapeSize with hd | hd
  · have hn : ¬ s.config.tapeSize ≤ s.dp := Nat.not_le.2 hd
    simp only [hn, false_and, and_false, iff_false]
    cases i with
    | condLeft imm =>
      simp only [exec, execCondLeft, onTape_of_lt hd, jumpForward, complete]
      split
      · split <;> simp
      · simp
    | condRight imm =>
      simp only [exec, execCondRight, onTape_of_lt hd, jumpBack, complete]
      split
      · simp
      · split <;> simp
    | input imm =>
      simp only [exec, execInput, onTape_of_lt hd, hold, complete]
      split <;> simp
    | incWord imm => simp [exec, execIncWord, onTape_of_lt hd, complete]
    | decWord imm => simp [exec, execDecWord, onTape_of_lt hd, complete]
    | addPtr imm => simp [exec, execAddPtr, complete]
    | subPtr imm => simp [exec, execSubPtr, complete]
    | output imm => simp [exec, execOutput, onTape_of_lt hd, complete]
  · rw [eq_comm (a := f)]
    cases i <;>
      simp [exec, execIncWord, execDecWord, execAddPtr, execSubPtr, execCondLeft, execCondRight, execInput,
        execOutput, onTape_of_le hd, complete, Instr.accessesTape, hd]

/-- An instruction refuses exactly when it is a bracket whose landing slot does not exist (R70). -/
theorem exec_eq_refused (i : Instr) (s : State) (r : Refusal) :
    exec i s = .refused r ↔
      r = .illFormedProgram ∧ s.dp < s.config.tapeSize ∧
        ((∃ d, i = .condLeft d ∧ s.cell = 0 ∧ s.progLen ≤ s.ip + d) ∨
          (∃ d, i = .condRight d ∧ s.cell ≠ 0 ∧ s.ip < d)) := by
  rcases Nat.lt_or_ge s.dp s.config.tapeSize with hd | hd
  · cases i with
    | condLeft imm =>
      simp only [exec, execCondLeft, onTape_of_lt hd, jumpForward, complete, cellIsZero]
      rw [eq_comm (a := r)]
      by_cases hz : s.cell = 0#8 <;> by_cases hl : s.ip + imm < s.progLen <;>
        simp [hz, hl, hd, Nat.le_of_not_lt, Nat.not_le_of_lt]
    | condRight imm =>
      simp only [exec, execCondRight, onTape_of_lt hd, jumpBack, complete, cellIsZero]
      rw [eq_comm (a := r)]
      by_cases hz : s.cell = 0#8 <;> by_cases hl : imm ≤ s.ip <;>
        simp [hz, hl, hd, Nat.lt_of_not_le, Nat.not_lt_of_le]
    | input imm =>
      simp only [exec, execInput, onTape_of_lt hd, hold, complete]
      split <;> simp
    | incWord imm => simp [exec, execIncWord, onTape_of_lt hd, complete]
    | decWord imm => simp [exec, execDecWord, onTape_of_lt hd, complete]
    | addPtr imm => simp [exec, execAddPtr, complete]
    | subPtr imm => simp [exec, execSubPtr, complete]
    | output imm => simp [exec, execOutput, onTape_of_lt hd, complete]
  · have hn : ¬ s.dp < s.config.tapeSize := Nat.not_lt.2 hd
    cases i <;>
      simp [exec, execIncWord, execDecWord, execAddPtr, execSubPtr, execCondLeft, execCondRight, execInput,
        execOutput, onTape_of_le hd, complete, hn]

/-! ### What a step can do -/

/-- A step answers a next state when the core is halted (and stays), or when the current instruction does. -/
theorem step_eq_next (s t : State) :
    step s = .next t ↔
      s.Meaningful ∧ ((s.running = false ∧ t = s) ∨ ∃ i, s.current = some i ∧ exec i s = .next t) := by
  unfold step cycle
  split
  · next hc =>
    rw [and_iff_right hc]
    cases h : s.current with
    | none => simp [halt, (State.current_eq_none s).1 h, eq_comm]
    | some i => simp [((State.current_eq_some s i).1 h).1]
  · next hc => simp [hc]

theorem step_eq_fault (s : State) (f : Fault) :
    step s = .fault f ↔
      LegalConfig s.config s.progLen ∧ ∃ i, s.current = some i ∧ exec i s = .fault f := by
  unfold step cycle
  split
  · next hc =>
    cases h : s.current with
    | none => simp [halt]
    | some i =>
      constructor
      · exact fun he => ⟨State.legal_of_current hc h, i, rfl, he⟩
      · rintro ⟨-, j, hj, he⟩
        cases hj
        exact he
  · next hc =>
    constructor
    · intro h
      cases h
    · exact fun h => absurd (.inr h.1) hc

theorem step_eq_refused (s : State) (r : Refusal) :
    step s = .refused r ↔
      (¬ s.Meaningful ∧ r = .badConfig) ∨
        (LegalConfig s.config s.progLen ∧ ∃ i, s.current = some i ∧ exec i s = .refused r) := by
  unfold step cycle
  split
  · next hc =>
    cases h : s.current with
    | none => simp [halt, not_not.2 hc]
    | some i =>
      constructor
      · exact fun he => .inr ⟨State.legal_of_current hc h, i, rfl, he⟩
      · rintro (⟨hn, -⟩ | ⟨-, j, hj, he⟩)
        · exact absurd hc hn
        · cases hj
          exact he
  · next hc =>
    constructor
    · rintro ⟨⟩
      exact .inl ⟨hc, rfl⟩
    · rintro (⟨-, rfl⟩ | ⟨hl, -⟩)
      · rfl
      · exact absurd (.inr hl) hc

/-- A core that has halted stays as it is (R96). -/
theorem step_of_halted {s : State} (hm : s.Meaningful) (h : s.halted = true) : step s = .next s :=
  (step_eq_next s s).2 ⟨hm, .inl ⟨(State.halted_iff s).1 h, rfl⟩⟩

theorem step_of_current {s : State} {i : Instr} (hl : LegalConfig s.config s.progLen) (h : s.current = some i) :
    step s = exec i s := by
  simp only [step, cycle, if_pos (show s.Meaningful from .inr hl), h]

end Sys2Proof.Machine
end

