-- ==== Sys2Proof/Laws/PerInstr.lean ====
section
/-! SUPPORT. Statements made per instruction (LAWS.json, "per_instruction"): one lemma per constructor of Instr. -/

/-- Where the fields of an instruction stand in its word (R61, R62): the opcode in the low three bits, the immediate
above. -/
def Sys2Proof.Laws.EncodedFields.Statement (i : Sys2Proof.Instr) : Prop :=
  Sys2Proof.encode i % 8 = i.opc ∧ Sys2Proof.encode i / 8 = i.imm

namespace Sys2Proof.Laws.EncodedFields

theorem fields_of_encode (i : Instr) : Statement i := by
  have := i.opc_lt
  unfold Statement
  rw [encode_eq]
  omega

theorem incWord (imm : Nat) : Statement (.incWord imm) := fields_of_encode _
theorem decWord (imm : Nat) : Statement (.decWord imm) := fields_of_encode _
theorem addPtr (imm : Nat) : Statement (.addPtr imm) := fields_of_encode _
theorem subPtr (imm : Nat) : Statement (.subPtr imm) := fields_of_encode _
theorem condLeft (imm : Nat) : Statement (.condLeft imm) := fields_of_encode _
theorem condRight (imm : Nat) : Statement (.condRight imm) := fields_of_encode _
theorem input (imm : Nat) : Statement (.input imm) := fields_of_encode _
theorem output (imm : Nat) : Statement (.output imm) := fields_of_encode _

end Sys2Proof.Laws.EncodedFields
end

