-- ==== Sys2Proof/Laws/Run.lean ====
section
/-! SUPPORT. Runs: their steps, their concatenation, and the induction over a run packaged once. -/

namespace Sys2Proof.Machine

theorem runFor_succ (n : Nat) (s : State) :
    runFor (n + 1) s =
      match step s with
      | .next t => runFor n t
      | .fault f => .fault f
      | .refused r => .refused r := by
  cases h : step s <;> simp only [runFor, h]

/-- `runFor` is the host's run of this machine. -/
theorem core_run_eq_runFor (n : Nat) (s : Sys2Proof.core.State) : Sys2Proof.core.run n s = runFor n s := by
  induction n generalizing s with
  | zero => rfl
  | succ n ih =>
    rw [Host.Core.run]
    refine Eq.trans ?_ (runFor_succ n s).symm
    have hstep : Sys2Proof.core.step s = step s := rfl
    rw [hstep]
    cases step s with
    | next t => exact ih t
    | fault f => rfl
    | refused r => rfl

theorem runs_zero (s t : State) : Runs 0 s t ↔ t = s := by simp [Runs, runFor, eq_comm]

theorem runs_succ (n : Nat) (s t : State) : Runs (n + 1) s t ↔ ∃ u, step s = .next u ∧ Runs n u t := by
  unfold Runs
  rw [runFor]
  cases step s <;> simp

theorem runs_one (s t : State) : Runs 1 s t ↔ step s = .next t := by
  simp [runs_succ, runs_zero]

theorem runs_add (m n : Nat) (s t : State) : Runs (m + n) s t ↔ ∃ u, Runs m s u ∧ Runs n u t := by
  induction m generalizing s with
  | zero => simp [runs_zero]
  | succ m ih =>
    rw [Nat.add_right_comm, runs_succ]
    simp only [ih, runs_succ]
    constructor
    · rintro ⟨v, hv, u, hu, h⟩
      exact ⟨u, ⟨v, hv, hu⟩, h⟩
    · rintro ⟨u, ⟨v, hv, hu⟩, h⟩
      exact ⟨v, hv, u, hu, h⟩

/-- A property that every step keeps holds along every run. -/
theorem runs_invariant {P : State → Prop} (hstep : ∀ s t, P s → step s = .next t → P t) {n : Nat} {s t : State}
    (hs : P s) (h : Runs n s t) : P t := by
  induction n generalizing s with
  | zero => exact (runs_zero s t).1 h ▸ hs
  | succ n ih =>
    obtain ⟨u, hu, h⟩ := (runs_succ n s t).1 h
    exact ih (hstep s u hs hu) h

/-- A reset starts a run exactly under P1 and P2, and then from the reset state with the same program store, configuration
and input. -/
theorem State.resetRun_eq_next (s t : State) :
    s.resetRun = .next t ↔
      s.Launched ∧ t = { State.reset with program := s.program, config := s.config, input := s.input } := by
  simp only [State.resetRun, State.Launched, State.WellFormed, Bool.and_eq_true]
  split
  · next hl =>
    split
    · next hw => rw [and_iff_right (And.intro hl hw), Host.Outcome.next.injEq, eq_comm]
    · next hw => simp [hw]
  · next hl => simp [hl]

/-- A reset refuses exactly without P1 or P2, an illegal configuration first. -/
theorem State.resetRun_eq_refused (s : State) (r : Refusal) :
    s.resetRun = .refused r ↔
      (¬ LegalConfig s.config s.progLen ∧ r = .badConfig) ∨
        (LegalConfig s.config s.progLen ∧ ¬ s.WellFormed ∧ r = .illFormedProgram) := by
  simp only [State.resetRun, State.WellFormed, Bool.and_eq_true]
  rw [eq_comm (a := r), eq_comm (a := r)]
  split
  · next hl =>
    split
    · next hw => simp [not_not.2 hl, hw]
    · next hw => simp [not_not.2 hl, and_iff_right hl, hw]
  · next hl => simp [hl]

/-- A reset never faults. -/
theorem State.resetRun_ne_fault (s : State) (f : Fault) : s.resetRun ≠ .fault f := by
  unfold State.resetRun
  split
  · split <;> simp
  · simp

/-- A reset that is not refused gives the reset state (P3). -/
theorem State.resetState_of_resetRun {s t : State} (h : s.resetRun = .next t) : t.ResetState := by
  obtain ⟨-, rfl⟩ := (State.resetRun_eq_next s t).1 h
  exact ⟨rfl, rfl, rfl, rfl, rfl, rfl, rfl⟩

/-- Reset with any Program, configuration and input loaded is the reset state (P3). -/
theorem resetState_loaded (program : List Nat) (c : Config) (input : InputChannel) :
    State.ResetState { State.reset with program := program, config := c, input := input } :=
  ⟨rfl, rfl, rfl, rfl, rfl, rfl, rfl⟩

/-- What holds at the start of a run under an environment, and is kept by the environment's moves and by every step,
holds at every moment of it. -/
theorem runUnder_invariant {P : State → Prop} {env : Nat → List InputMove} {trace : Nat → State}
    (hmove : ∀ s moves, P s → P (State.answers s moves)) (hstep : ∀ s t, P s → step s = .next t → P t)
    (h : RunUnder env trace) (h0 : P (trace 0)) (n : Nat) : P (trace n) := by
  induction n with
  | zero => exact h0
  | succ n ih => exact hstep _ _ (hmove _ _ ih) (h n)

end Sys2Proof.Machine
end

