-- ==== Sys2Proof/Laws/Program.lean ====
section
/-! SUPPORT. Well-formed Programs: the check at every index, the bracket scan, and the instruction a step executes. -/

namespace Sys2Proof.Machine

/-! ### The check of R70 -/

theorem wellFormedProgram_iff (code : List Instr) :
    wellFormedProgram code = true ↔ ∀ k < code.length, wellFormedAt code k = true := by
  simp [wellFormedProgram]

theorem wellFormedProgram_left {code : List Instr} (h : wellFormedProgram code = true) {i d : Nat}
    (hi : code[i]? = some (.condLeft d)) : LeftMatched code i d := by
  have hlt : i < code.length := by
    rcases List.getElem?_eq_some_iff.1 hi with ⟨hlt, -⟩
    exact hlt
  have := (wellFormedProgram_iff code).1 h i hlt
  simpa [wellFormedAt, hi] using this

theorem wellFormedProgram_right {code : List Instr} (h : wellFormedProgram code = true) {j d : Nat}
    (hj : code[j]? = some (.condRight d)) : RightMatched code j d := by
  have hlt : j < code.length := by
    rcases List.getElem?_eq_some_iff.1 hj with ⟨hlt, -⟩
    exact hlt
  have := (wellFormedProgram_iff code).1 h j hlt
  simpa [wellFormedAt, hj] using this

/-- R70 as it is written: (a) for every CondLeft, (b) for every CondRight. -/
theorem wellFormedProgram_of {code : List Instr}
    (hl : ∀ i d, code[i]? = some (.condLeft d) → LeftMatched code i d)
    (hr : ∀ j d, code[j]? = some (.condRight d) → RightMatched code j d) : wellFormedProgram code = true := by
  rw [wellFormedProgram_iff]
  intro k hk
  cases h : code[k]? with
  | none => simp [wellFormedAt, h]
  | some i =>
    cases i with
    | condLeft d => simpa [wellFormedAt, h] using hl k d h
    | condRight d => simpa [wellFormedAt, h] using hr k d h
    | _ => simp [wellFormedAt, h]

/-! ### The scan -/

theorem bracket_opens_iff (i : Instr) : i.bracket = .opens ↔ ∃ d, i = .condLeft d := by
  cases i <;> simp [Instr.bracket]

theorem bracket_closes_iff (i : Instr) : i.bracket = .closes ↔ ∃ d, i = .condRight d := by
  cases i <;> simp [Instr.bracket]

theorem scanForMatch_opens {i : Instr} (h : i.bracket = .opens) (n : Nat) (rest : List Instr) :
    scanForMatch n (i :: rest) = (scanForMatch (n + 1) rest).map (· + 1) := by
  simp [scanForMatch, h]

theorem scanForMatch_closes_succ {i : Instr} (h : i.bracket = .closes) (n : Nat) (rest : List Instr) :
    scanForMatch (n + 1) (i :: rest) = (scanForMatch n rest).map (· + 1) := by
  simp [scanForMatch, h]

theorem scanForMatch_closes_zero {i : Instr} (h : i.bracket = .closes) (rest : List Instr) :
    scanForMatch 0 (i :: rest) = some 0 := by
  simp [scanForMatch, h]

theorem scanForMatch_plain {i : Instr} (h : i.bracket = .plain) (n : Nat) (rest : List Instr) :
    scanForMatch n (i :: rest) = (scanForMatch n rest).map (· + 1) := by
  simp [scanForMatch, h]

/-- The scan sees only the bracket kinds: immediates do not matter to it (R77). -/
theorem scanForMatch_congr {code code' : List Instr} (h : code.map Instr.bracket = code'.map Instr.bracket)
    (n : Nat) : scanForMatch n code = scanForMatch n code' := by
  induction code generalizing code' n with
  | nil =>
    cases code' with
    | nil => rfl
    | cons i rest => simp at h
  | cons i rest ih =>
    cases code' with
    | nil => simp at h
    | cons i' rest' =>
      simp only [List.map_cons, List.cons.injEq] at h
      cases hb : i.bracket with
      | opens => rw [scanForMatch_opens hb, scanForMatch_opens (h.1 ▸ hb), ih h.2]
      | plain => rw [scanForMatch_plain hb, scanForMatch_plain (h.1 ▸ hb), ih h.2]
      | closes =>
        cases n with
        | zero => rw [scanForMatch_closes_zero hb, scanForMatch_closes_zero (h.1 ▸ hb)]
        | succ n => rw [scanForMatch_closes_succ hb, scanForMatch_closes_succ (h.1 ▸ hb), ih h.2]

theorem matchOf_congr {code code' : List Instr} (h : code.map Instr.bracket = code'.map Instr.bracket)
    (i : Nat) : matchOf code i = matchOf code' i := by
  unfold matchOf
  rw [scanForMatch_congr]
  simp [List.map_drop, h]

/-- What the scan finds is a CondRight in the list. -/
theorem scanForMatch_spec {n : Nat} {code : List Instr} {k : Nat} (h : scanForMatch n code = some k) :
    ∃ i, code[k]? = some i ∧ i.bracket = .closes := by
  induction code generalizing n k with
  | nil => simp [scanForMatch] at h
  | cons i rest ih =>
    cases hb : i.bracket with
    | opens =>
      rw [scanForMatch_opens hb] at h
      obtain ⟨m, hm, rfl⟩ := Option.map_eq_some_iff.1 h
      simpa using ih hm
    | plain =>
      rw [scanForMatch_plain hb] at h
      obtain ⟨m, hm, rfl⟩ := Option.map_eq_some_iff.1 h
      simpa using ih hm
    | closes =>
      cases n with
      | zero =>
        rw [scanForMatch_closes_zero hb] at h
        cases h
        exact ⟨i, rfl, hb⟩
      | succ n =>
        rw [scanForMatch_closes_succ hb] at h
        obtain ⟨m, hm, rfl⟩ := Option.map_eq_some_iff.1 h
        simpa using ih hm

/-- The match of a CondLeft lies behind it and is a CondRight. -/
theorem matchOf_spec {code : List Instr} {i j : Nat} (h : matchOf code i = some j) :
    i < j ∧ ∃ d, code[j]? = some (.condRight d) := by
  obtain ⟨k, hk, rfl⟩ := Option.map_eq_some_iff.1 h
  obtain ⟨x, hx, hb⟩ := scanForMatch_spec hk
  obtain ⟨d, rfl⟩ := (bracket_closes_iff x).1 hb
  refine ⟨by omega, d, ?_⟩
  rw [List.getElem?_drop] at hx
  rwa [Nat.add_comm] at hx

/-- With one bracket fewer to close, the scan finds its match sooner. -/
theorem scanForMatch_lower {n : Nat} {code : List Instr} {k : Nat} (h : scanForMatch (n + 1) code = some k) :
    ∃ m, m < k ∧ scanForMatch n code = some m := by
  induction code generalizing n k with
  | nil => simp [scanForMatch] at h
  | cons i rest ih =>
    cases hb : i.bracket with
    | opens =>
      rw [scanForMatch_opens hb] at h ⊢
      obtain ⟨k', hk, rfl⟩ := Option.map_eq_some_iff.1 h
      obtain ⟨m, hm, hs⟩ := ih hk
      exact ⟨m + 1, by omega, by rw [hs]; rfl⟩
    | plain =>
      rw [scanForMatch_plain hb] at h ⊢
      obtain ⟨k', hk, rfl⟩ := Option.map_eq_some_iff.1 h
      obtain ⟨m, hm, hs⟩ := ih hk
      exact ⟨m + 1, by omega, by rw [hs]; rfl⟩
    | closes =>
      rw [scanForMatch_closes_succ hb] at h
      obtain ⟨k', hk, rfl⟩ := Option.map_eq_some_iff.1 h
      cases n with
      | zero => exact ⟨0, by omega, scanForMatch_closes_zero hb rest⟩
      | succ n =>
        obtain ⟨m, hm, hs⟩ := ih hk
        exact ⟨m + 1, by omega, by rw [scanForMatch_closes_succ hb, hs]; rfl⟩

theorem scanForMatch_lower_zero {n : Nat} {code : List Instr} {k : Nat} (h : scanForMatch n code = some k) :
    ∃ m, m ≤ k ∧ scanForMatch 0 code = some m := by
  induction n generalizing k with
  | zero => exact ⟨k, le_rfl, h⟩
  | succ n ih =>
    obtain ⟨m, hm, hs⟩ := scanForMatch_lower h
    obtain ⟨m', hm', hs'⟩ := ih hs
    exact ⟨m', by omega, hs'⟩

/-- A CondLeft that the scan passes is matched before the scan's own match. -/
theorem scanForMatch_passes {n : Nat} {front : List Instr} {i : Instr} {rest : List Instr} {k : Nat}
    (hi : i.bracket = .opens) (h : scanForMatch n (front ++ i :: rest) = some k) (hk : front.length < k) :
    ∃ m, scanForMatch 0 rest = some m ∧ front.length + 1 + m < k := by
  induction front generalizing n k with
  | nil =>
    rw [List.nil_append, scanForMatch_opens hi] at h
    obtain ⟨k', hk', rfl⟩ := Option.map_eq_some_iff.1 h
    obtain ⟨m, hm, hs⟩ := scanForMatch_lower hk'
    obtain ⟨m', hm', hs'⟩ := scanForMatch_lower_zero hs
    exact ⟨m', hs', by simp only [List.length_nil]; omega⟩
  | cons x front ih =>
    rw [List.length_cons] at hk ⊢
    have done : ∀ n', (scanForMatch n' (front ++ i :: rest)).map (· + 1) = some k →
        ∃ m, scanForMatch 0 rest = some m ∧ front.length + 1 + 1 + m < k := by
      intro n' h'
      obtain ⟨k', hk', rfl⟩ := Option.map_eq_some_iff.1 h'
      obtain ⟨m, hm, hlt⟩ := ih hk' (by omega)
      exact ⟨m, hm, by omega⟩
    rw [List.cons_append] at h
    cases hb : x.bracket with
    | opens => exact done _ (by rwa [scanForMatch_opens hb] at h)
    | plain => exact done _ (by rwa [scanForMatch_plain hb] at h)
    | closes =>
      cases n with
      | zero =>
        rw [scanForMatch_closes_zero hb] at h
        cases h
        omega
      | succ n => exact done _ (by rwa [scanForMatch_closes_succ hb] at h)

/-- Brackets nest: a CondLeft strictly between a CondLeft and its match has its own match before that match. -/
theorem matchOf_nested {code : List Instr} {i i' j : Nat} {x : Instr} (h : matchOf code i = some j)
    (hlt : i < i') (hj : i' < j) (hx : code[i']? = some x) (hb : x.bracket = .opens) :
    ∃ j', matchOf code i' = some j' ∧ j' < j := by
  obtain ⟨k, hk, rfl⟩ := Option.map_eq_some_iff.1 h
  obtain ⟨hlen, hget⟩ := List.getElem?_eq_some_iff.1 hx
  have hsplit : code.drop (i + 1) = (code.drop (i + 1)).take (i' - (i + 1)) ++ x :: code.drop (i' + 1) := by
    rw [← hget, ← List.drop_eq_getElem_cons hlen]
    conv_lhs => rw [← List.take_append_drop (i' - (i + 1)) (code.drop (i + 1))]
    rw [List.drop_drop, show i + 1 + (i' - (i + 1)) = i' by omega]
  rw [hsplit] at hk
  have hl : ((code.drop (i + 1)).take (i' - (i + 1))).length = i' - (i + 1) := by
    rw [List.length_take, List.length_drop]
    omega
  obtain ⟨m, hm, hlt'⟩ := scanForMatch_passes hb hk (by omega)
  exact ⟨m + (i' + 1), by simp [matchOf, hm], by omega⟩

/-- Two CondLefts never have the same match. -/
theorem matchOf_inj {code : List Instr} {i i' j : Nat} {x x' : Instr} (hx : code[i]? = some x)
    (hb : x.bracket = .opens) (hx' : code[i']? = some x') (hb' : x'.bracket = .opens)
    (h : matchOf code i = some j) (h' : matchOf code i' = some j) : i = i' := by
  rcases Nat.lt_trichotomy i i' with hlt | heq | hlt
  · obtain ⟨j', h1, h2⟩ := matchOf_nested h hlt (matchOf_spec h').1 hx' hb'
    rw [h'] at h1
    cases h1
    omega
  · exact heq
  · obtain ⟨j', h1, h2⟩ := matchOf_nested h' hlt (matchOf_spec h).1 hx hb
    rw [h] at h1
    cases h1
    omega

/-! ### The instruction a step executes -/

/-- The current instruction is the decoded word at `ip`. -/
theorem codeOf_of_current {s : State} {i : Instr} (h : s.current = some i) :
    s.guard = true ∧ (codeOf s.config s.program)[s.ip]? = some i := by
  obtain ⟨-, w, hw, hi⟩ := (State.current_eq_some s i).1 h
  have hg := (State.of_current h).2
  exact ⟨hg, by simp [codeOf, hw, hi]⟩

@[simp] theorem codeOf_length (c : Config) (words : List Nat) : (codeOf c words).length = words.length := by
  simp [codeOf]

end Sys2Proof.Machine
end

