-- ==== Sys2Proof/Laws/Translator.lean ====
section
/-! SUPPORT. The Translator: the look-ahead of a run, the skip over its bytes, what pass 1 emits, and what pass 2 has written
after each round of its loop. -/

namespace Sys2Proof.Machine

/-! ### Pass 1 -/

theorem lookAhead_cons (s : Symbol) (b : Byte) (rest : List Byte) :
    lookAhead s (b :: rest) =
      match symbolOf b with
      | none => ((lookAhead s rest).1, (lookAhead s rest).2 + 1)
      | some t => if t = s then ((lookAhead s rest).1 + 1, (lookAhead s rest).2 + 1) else (0, 0) := rfl

/-- The look-ahead takes the whole run, and counts the run's own symbols only (R74). -/
theorem lookAhead_run (s : Symbol) (run rest : List Byte)
    (hrun : ∀ b ∈ run, symbolOf b = none ∨ symbolOf b = some s) (hrest : lookAhead s rest = (0, 0)) :
    lookAhead s (run ++ rest) = (run.countP (fun b => symbolOf b == some s), run.length) := by
  induction run with
  | nil => simpa using hrest
  | cons b run ih =>
    have ih' := ih fun c hc => hrun c (List.mem_cons_of_mem _ hc)
    rw [List.cons_append, lookAhead_cons, ih', List.countP_cons, List.length_cons]
    rcases hrun b List.mem_cons_self with h | h <;> simp [h]

/-- A run stops at another dialect symbol and at the end (R74). -/
theorem lookAhead_stop (s : Symbol) (rest : List Byte)
    (h : rest = [] ∨ ∃ b rest' other, rest = b :: rest' ∧ symbolOf b = some other ∧ other ≠ s) :
    lookAhead s rest = (0, 0) := by
  rcases h with rfl | ⟨b, rest', other, rfl, hb, hne⟩
  · rfl
  · rw [lookAhead_cons, hb]
    simp [hne]

/-- Bytes that a run has taken are passed over. -/
theorem pass1_skip (immCap pos : Nat) (run rest : List Byte) :
    pass1 immCap pos run.length (run ++ rest) = pass1 immCap (pos + run.length) 0 rest := by
  induction run generalizing pos with
  | nil => rfl
  | cons b run ih =>
    rw [List.length_cons, List.cons_append, pass1, ih]
    congr 1
    omega

theorem pass1_none (immCap pos : Nat) {b : Byte} (h : symbolOf b = none) (rest : List Byte) :
    pass1 immCap pos 0 (b :: rest) = pass1 immCap (pos + 1) 0 rest := by
  simp [pass1, h]

theorem pass1_single (immCap pos : Nat) {b : Byte} {s : Symbol} (h : symbolOf b = some s) (hs : s.folds = false)
    (rest : List Byte) :
    pass1 immCap pos 0 (b :: rest) = (pass1 immCap (pos + 1) 0 rest).map (s.instr 0 :: ·) := by
  simp [pass1, h, hs]

theorem pass1_fold (immCap pos : Nat) {b : Byte} {s : Symbol} (h : symbolOf b = some s) (hs : s.folds = true)
    (rest : List Byte) :
    pass1 immCap pos 0 (b :: rest) =
      if immCap < (lookAhead s rest).1 + 1 then .error (.immediateOverflow pos)
      else (pass1 immCap (pos + 1) (lookAhead s rest).2 rest).map (s.instr ((lookAhead s rest).1 + 1) :: ·) := by
  simp [pass1, h, hs]

theorem Except.map_eq_ok {ε α β : Type} {f : α → β} {r : Except ε α} {b : β} (h : r.map f = .ok b) :
    ∃ a, r = .ok a ∧ f a = b := by
  cases r with
  | error e => cases h
  | ok a => exact ⟨a, rfl, by cases h; rfl⟩

/-- What pass 1 can emit: a folded pointer move with a count in `1 .. IMM_CAP`, or another symbol's instruction with
immediate 0 (R73, R74, R76). -/
def Emitted (immCap : Nat) (i : Instr) : Prop :=
  ∃ s n, i = Symbol.instr n s ∧ ((s.folds = true ∧ 1 ≤ n ∧ n ≤ immCap) ∨ (s.folds = false ∧ n = 0))

theorem pass1_emitted {immCap : Nat} {src : List Byte} {pos skip : Nat} {code : List Instr}
    (h : pass1 immCap pos skip src = .ok code) : ∀ i ∈ code, Emitted immCap i := by
  induction src generalizing pos skip code with
  | nil =>
    have : code = [] := by
      cases skip <;> · rw [pass1] at h; cases h; rfl
    simp [this]
  | cons b rest ih =>
    cases skip with
    | succ skip =>
      rw [pass1] at h
      exact ih h
    | zero =>
      cases hb : symbolOf b with
      | none => exact ih (pass1_none immCap pos hb rest ▸ h)
      | some s =>
        cases hs : s.folds with
        | false =>
          rw [pass1_single immCap pos hb hs] at h
          obtain ⟨tail, ht, rfl⟩ := Except.map_eq_ok h
          intro i hi
          rcases List.mem_cons.1 hi with rfl | hi
          · exact ⟨s, 0, rfl, .inr ⟨hs, rfl⟩⟩
          · exact ih ht i hi
        | true =>
          rw [pass1_fold immCap pos hb hs] at h
          split at h
          · cases h
          · next hcap =>
            obtain ⟨tail, ht, rfl⟩ := Except.map_eq_ok h
            intro i hi
            rcases List.mem_cons.1 hi with rfl | hi
            · exact ⟨s, _, rfl, .inl ⟨hs, by omega, by omega⟩⟩
            · exact ih ht i hi

/-- Behind a run of one symbol the next instruction is not of that symbol: the run was maximal (R74). -/
theorem pass1_after_run {immCap : Nat} {src : List Byte} {s : Symbol} {pos : Nat} {code : List Instr}
    (h : pass1 immCap pos (lookAhead s src).2 src = .ok code) : ∀ n, code[0]? ≠ some (s.instr n) := by
  induction src generalizing pos code with
  | nil =>
    have hcode : code = [] := by
      rw [lookAhead, pass1] at h
      cases h
      rfl
    simp [hcode]
  | cons b rest ih =>
    rw [lookAhead_cons] at h
    cases hb : symbolOf b with
    | none =>
      simp only [hb] at h
      rw [pass1] at h
      exact ih h
    | some t =>
      simp only [hb] at h
      split at h
      · rw [pass1] at h
        exact ih h
      · next hne =>
        intro n
        cases hs : t.folds with
        | false =>
          rw [pass1_single immCap pos hb hs] at h
          obtain ⟨tail, -, rfl⟩ := Except.map_eq_ok h
          cases t <;> cases s <;> simp_all [Symbol.instr]
        | true =>
          rw [pass1_fold immCap pos hb hs] at h
          split at h
          · cases h
          · obtain ⟨tail, -, rfl⟩ := Except.map_eq_ok h
            cases t <;> cases s <;> simp_all [Symbol.instr]

/-- No two adjacent instructions of pass 1 are pointer moves of one direction. -/
theorem pass1_adjacent {immCap : Nat} {src : List Byte} {pos skip : Nat} {code : List Instr}
    (h : pass1 immCap pos skip src = .ok code) {s : Symbol} (hs : s.folds = true) :
    ∀ k m n, code[k]? = some (s.instr m) → code[k + 1]? ≠ some (s.instr n) := by
  induction src generalizing pos skip code with
  | nil =>
    have : code = [] := by
      cases skip <;> · rw [pass1] at h; cases h; rfl
    simp [this]
  | cons b rest ih =>
    cases skip with
    | succ skip =>
      rw [pass1] at h
      exact ih h
    | zero =>
      cases hb : symbolOf b with
      | none => exact ih (pass1_none immCap pos hb rest ▸ h)
      | some t =>
        cases ht : t.folds with
        | false =>
          rw [pass1_single immCap pos hb ht] at h
          obtain ⟨tail, htail, rfl⟩ := Except.map_eq_ok h
          intro k m n hk
          cases k with
          | zero =>
            cases t <;> cases s <;> simp_all [Symbol.instr, Symbol.folds]
          | succ k => simpa using ih htail k m n (by simpa using hk)
        | true =>
          rw [pass1_fold immCap pos hb ht] at h
          split at h
          · cases h
          · obtain ⟨tail, htail, rfl⟩ := Except.map_eq_ok h
            intro k m n hk
            cases k with
            | zero =>
              have hts : t = s := by
                cases t <;> cases s <;> simp_all [Symbol.instr, Symbol.folds]
              subst hts
              simpa using pass1_after_run htail n
            | succ k => simpa using ih htail k m n (by simpa using hk)

/-! ### Pass 2 -/

theorem kindAt_iff (code : List Instr) (k : Nat) (kind : BracketKind) :
    kindAt code k kind = true ↔ ∃ i, code[k]? = some i ∧ i.bracket = kind := by
  unfold kindAt
  cases code[k]? <;> simp

theorem kindAt_congr {code code' : List Instr} (h : code.map Instr.bracket = code'.map Instr.bracket) (k : Nat)
    (kind : BracketKind) : kindAt code k kind = kindAt code' k kind := by
  have hk : (code[k]?).map Instr.bracket = (code'[k]?).map Instr.bracket := by
    rw [← List.getElem?_map, ← List.getElem?_map, h]
  unfold kindAt
  cases h1 : code[k]? <;> cases h2 : code'[k]? <;> simp_all

/-- A CondLeft at `i` that has a match within reach. -/
def Resolves (immCap : Nat) (code : List Instr) (i : Nat) : Prop :=
  ∃ j, matchOf code i = some j ∧ j - i ≤ immCap

/-- What pass 2 has done when its loop has passed the indices below `m`. -/
structure ResolvedBelow (immCap : Nat) (code : List Instr) (m : Nat) (r : Resolution) : Prop where
  kinds : r.code.map Instr.bracket = code.map Instr.bracket
  plain : ∀ k, kindAt code k .plain = true → r.code[k]? = code[k]?
  pairs : ∀ i < m, kindAt code i .opens = true → ∃ j, matchOf code i = some j ∧ j - i ≤ immCap ∧
    r.code[i]? = some (.condLeft (j - i)) ∧ r.code[j]? = some (.condRight (j - i)) ∧ j ∈ r.matched
  matched : ∀ j ∈ r.matched, ∃ i, kindAt code i .opens = true ∧ matchOf code i = some j

theorem map_set_bracket {code : List Instr} {k : Nat} {i x : Instr} (h : code[k]? = some i)
    (hb : x.bracket = i.bracket) : (code.set k x).map Instr.bracket = code.map Instr.bracket := by
  rw [List.map_set, hb]
  apply List.ext_getElem?
  intro n
  rw [List.getElem?_set]
  split
  · next hn =>
    subst hn
    split
    · simp [h]
    · next hlt => simp at hlt; simp [hlt]
  · rfl

/-- One round of the loop. -/
theorem resolveAt_cases {immCap : Nat} {code : List Instr} {m : Nat} {r : Resolution}
    (hr : ResolvedBelow immCap code m r) :
    (kindAt code m .opens = false ∧ resolveAt immCap r m = .ok r) ∨
    (kindAt code m .opens = true ∧ matchOf code m = none ∧ resolveAt immCap r m = .error (.unbalancedBracket m)) ∨
    (kindAt code m .opens = true ∧ ∃ j, matchOf code m = some j ∧ immCap < j - m ∧
      resolveAt immCap r m = .error (.jumpRangeOverflow m)) ∨
    (kindAt code m .opens = true ∧ ∃ j, matchOf code m = some j ∧ j - m ≤ immCap ∧
      resolveAt immCap r m =
        .ok { code := (r.code.set m (.condLeft (j - m))).set j (.condRight (j - m)), matched := j :: r.matched }) := by
  unfold resolveAt
  rw [kindAt_congr hr.kinds, matchOf_congr hr.kinds]
  cases hk : kindAt code m .opens with
  | false => exact .inl ⟨rfl, by simp⟩
  | true =>
    right
    cases hm : matchOf code m with
    | none => exact .inl ⟨rfl, rfl, by simp⟩
    | some j =>
      right
      by_cases hc : immCap < j - m
      · exact .inl ⟨rfl, j, rfl, hc, by simp [hc]⟩
      · exact .inr ⟨rfl, j, rfl, by omega, by simp [hc]⟩

theorem resolvedBelow_succ {immCap : Nat} {code : List Instr} {m : Nat} {r r' : Resolution}
    (hr : ResolvedBelow immCap code m r) (h : resolveAt immCap r m = .ok r') :
    ResolvedBelow immCap code (m + 1) r' := by
  rcases resolveAt_cases hr with ⟨hk, he⟩ | ⟨-, -, he⟩ | ⟨-, j, -, -, he⟩ | ⟨hk, j, hj, hcap, he⟩
  · rw [he] at h
    cases h
    refine ⟨hr.kinds, hr.plain, fun i hi ho => ?_, hr.matched⟩
    rcases Nat.lt_succ_iff_lt_or_eq.1 hi with hi | rfl
    · exact hr.pairs i hi ho
    · rw [hk] at ho
      cases ho
  · rw [he] at h
    cases h
  · rw [he] at h
    cases h
  · rw [he] at h
    cases h
    obtain ⟨x, hx, hxb⟩ := (kindAt_iff ..).1 hk
    obtain ⟨hmj, d, hd⟩ := matchOf_spec hj
    have hkm : kindAt r.code m .opens = true := by rw [kindAt_congr hr.kinds]; exact hk
    have hkj : kindAt r.code j .closes = true := by
      rw [kindAt_congr hr.kinds]
      exact (kindAt_iff ..).2 ⟨_, hd, rfl⟩
    obtain ⟨y, hy, hyb⟩ := (kindAt_iff ..).1 hkm
    obtain ⟨z, hz, hzb⟩ := (kindAt_iff ..).1 hkj
    have hmlt : m < r.code.length := (List.getElem?_eq_some_iff.1 hy).1
    have hjlt : j < r.code.length := (List.getElem?_eq_some_iff.1 hz).1
    have hget : ∀ k, ((r.code.set m (.condLeft (j - m))).set j (.condRight (j - m)))[k]? =
        if k = j then some (.condRight (j - m)) else if k = m then some (.condLeft (j - m)) else r.code[k]? := by
      intro k
      rw [List.getElem?_set, List.getElem?_set, List.length_set]
      by_cases h1 : k = j
      · subst h1; simp [hjlt]
      · by_cases h2 : k = m
        · subst h2; simp [Ne.symm h1, h1, hmlt]
        · simp [Ne.symm h1, Ne.symm h2, h1, h2]
    refine ⟨?_, fun k hp => ?_, fun i hi ho => ?_, fun j' hj' => ?_⟩
    · have h1 := map_set_bracket (x := Instr.condLeft (j - m)) hy (by rw [hyb]; rfl)
      have hz' : (r.code.set m (Instr.condLeft (j - m)))[j]? = some z := by
        rw [List.getElem?_set]
        simp [show ¬ m = j by omega, hz]
      rw [map_set_bracket (x := Instr.condRight (j - m)) hz' (by rw [hzb]; rfl), h1]
      exact hr.kinds
    · obtain ⟨p, hp1, hp2⟩ := (kindAt_iff ..).1 hp
      have h1 : k ≠ j := by
        rintro rfl
        rw [hd] at hp1
        cases hp1
        cases hp2
      have h2 : k ≠ m := by
        rintro rfl
        rw [hx] at hp1
        cases hp1
        rw [hp2] at hxb
        cases hxb
      show ((r.code.set m (.condLeft (j - m))).set j (.condRight (j - m)))[k]? = _
      rw [hget, if_neg h1, if_neg h2]
      exact hr.plain k hp
    · rcases Nat.lt_succ_iff_lt_or_eq.1 hi with hi' | rfl
      · obtain ⟨j', a1, a2, a3, a4, a5⟩ := hr.pairs i hi' ho
        obtain ⟨w, hw, hwb⟩ := (kindAt_iff ..).1 ho
        obtain ⟨-, d', hd'⟩ := matchOf_spec a1
        have hjj : j' ≠ j := by
          rintro rfl
          have := matchOf_inj hw hwb hx hxb a1 hj
          omega
        have hij : i ≠ j := by
          rintro rfl
          rw [hd] at hw
          cases hw
          cases hwb
        have hjm : j' ≠ m := by
          rintro rfl
          rw [hx] at hd'
          cases hd'
          cases hxb
        refine ⟨j', a1, a2, ?_, ?_, List.mem_cons_of_mem _ a5⟩
        · show ((r.code.set m (.condLeft (j - m))).set j (.condRight (j - m)))[i]? = _
          rw [hget, if_neg hij, if_neg (by omega), a3]
        · show ((r.code.set m (.condLeft (j - m))).set j (.condRight (j - m)))[j']? = _
          rw [hget, if_neg hjj, if_neg hjm, a4]
      · refine ⟨j, hj, hcap, ?_, ?_, List.mem_cons_self⟩
        · show ((r.code.set i (.condLeft (j - i))).set j (.condRight (j - i)))[i]? = _
          rw [hget, if_neg (by omega), if_pos rfl]
        · show ((r.code.set i (.condLeft (j - i))).set j (.condRight (j - i)))[j]? = _
          rw [hget, if_pos rfl]
    · rcases List.mem_cons.1 hj' with rfl | hj'
      · exact ⟨m, hk, hj⟩
      · exact hr.matched j' hj'

/-- The loop below `m`. -/
def resolveBelow (immCap : Nat) (code : List Instr) (m : Nat) : Except TranslationError Resolution :=
  (List.range m).foldlM (resolveAt immCap) { code := code, matched := [] }

theorem resolveBelow_succ (immCap : Nat) (code : List Instr) (m : Nat) :
    resolveBelow immCap code (m + 1) =
      match resolveBelow immCap code m with
      | .ok r => resolveAt immCap r m
      | .error e => .error e := by
  unfold resolveBelow
  rw [List.range_succ, List.foldlM_append]
  cases (List.range m).foldlM (resolveAt immCap) { code := code, matched := [] } with
  | error e => rfl
  | ok r =>
    show (resolveAt immCap r m >>= fun x => pure x) = resolveAt immCap r m
    cases resolveAt immCap r m <;> rfl

theorem resolveBelow_ok {immCap : Nat} {code : List Instr} {m : Nat} {r : Resolution}
    (h : resolveBelow immCap code m = .ok r) : ResolvedBelow immCap code m r := by
  induction m generalizing r with
  | zero =>
    cases h
    exact ⟨rfl, fun _ _ => rfl, fun i hi => absurd hi (Nat.not_lt_zero i), fun j hj => by cases hj⟩
  | succ m ih =>
    rw [resolveBelow_succ] at h
    cases hm : resolveBelow immCap code m with
    | error e => rw [hm] at h; cases h
    | ok r0 =>
      rw [hm] at h
      exact resolvedBelow_succ (ih hm) h

/-- While every CondLeft resolves, the loop goes on. -/
theorem resolveBelow_goes_on {immCap : Nat} {code : List Instr} {m : Nat}
    (h : ∀ k < m, kindAt code k .opens = true → Resolves immCap code k) :
    ∃ r, resolveBelow immCap code m = .ok r := by
  induction m with
  | zero => exact ⟨_, rfl⟩
  | succ m ih =>
    obtain ⟨r, hr⟩ := ih fun k hk => h k (by omega)
    rw [resolveBelow_succ, hr]
    rcases resolveAt_cases (resolveBelow_ok hr) with ⟨-, he⟩ | ⟨hk, hn, -⟩ | ⟨hk, j, hj, hc, -⟩ | ⟨-, j, -, -, he⟩
    · exact ⟨_, he⟩
    · obtain ⟨j, hj, -⟩ := h m (by omega) hk
      rw [hn] at hj
      cases hj
    · obtain ⟨j', hj', hc'⟩ := h m (by omega) hk
      rw [hj] at hj'
      cases hj'
      omega
    · exact ⟨_, he⟩

/-- The first error ends the loop. -/
theorem resolveBelow_error {immCap : Nat} {code : List Instr} {m n : Nat} {e : TranslationError} (hmn : m ≤ n)
    (h : resolveBelow immCap code m = .error e) : resolveBelow immCap code n = .error e := by
  induction n with
  | zero =>
    obtain rfl : m = 0 := by omega
    exact h
  | succ n ih =>
    rcases Nat.le_succ_iff_eq_or_le.1 hmn with rfl | hle
    · exact h
    · rw [resolveBelow_succ, ih hle]

theorem pass2_eq (immCap : Nat) (code : List Instr) :
    pass2 immCap code =
      match resolveBelow immCap code code.length with
      | .error e => .error e
      | .ok r =>
        match strayRight r with
        | some j => .error (.unbalancedBracket j)
        | none => .ok r.code := rfl

theorem strayRight_none {immCap : Nat} {code : List Instr} {r : Resolution} {m : Nat}
    (hr : ResolvedBelow immCap code m r) (h : strayRight r = none) (j : Nat)
    (hj : kindAt code j .closes = true) : j ∈ r.matched := by
  have hkj : kindAt r.code j .closes = true := by rw [kindAt_congr hr.kinds]; exact hj
  obtain ⟨x, hx, -⟩ := (kindAt_iff ..).1 hkj
  have hlt : j < r.code.length := (List.getElem?_eq_some_iff.1 hx).1
  have := List.find?_eq_none.1 h j (List.mem_range.2 hlt)
  simpa [hkj] using this

theorem pass2_ok {immCap : Nat} {code resolved : List Instr} (h : pass2 immCap code = .ok resolved) :
    ∃ r, r.code = resolved ∧ ResolvedBelow immCap code code.length r ∧
      ∀ j, kindAt code j .closes = true → ∃ i, kindAt code i .opens = true ∧ matchOf code i = some j := by
  rw [pass2_eq] at h
  cases hr : resolveBelow immCap code code.length with
  | error e => rw [hr] at h; cases h
  | ok r =>
    rw [hr] at h
    cases hs : strayRight r with
    | some j => simp [hs] at h
    | none =>
      simp only [hs, Except.ok.injEq] at h
      have hb := resolveBelow_ok hr
      exact ⟨r, h, hb, fun j hj => hb.matched j (strayRight_none hb hs j hj)⟩

end Sys2Proof.Machine
end

