-- ==== Sys2Proof/Tests/Slice0.lean ====
section
/-! SUPPORT. Tests: the well-formedness smoke, words written out from the spec's encoding, single steps with the results that
spec/95_test_vectors.md gives (the vector is named at each), and for every statement with hypotheses a witness that meets
them. -/

namespace Sys2Proof.Tests

open Sys2Proof.Machine

/-! ### Small states -/

/-- The default configuration of 95_test_vectors.md, with a policy on exhaustion named. -/
def cfg : Config where
  immBits := 13
  ipBits := 32
  dpBits := 32
  tapeSize := 32768
  stepCeiling := none
  boundsCheck := true
  asciiOutput := false
  eofPolicy := .noWrite

/-- A state with a Program, the three registers and a tape. -/
def st (program : List Nat) (ip dp stepCount : Nat) (tape : Memory) : State where
  ip := ip
  dp := dp
  stepCount := stepCount
  tape := tape
  program := program
  config := cfg
  inputRequest := false
  input := { pending := [], exhausted := false }
  output := []
  haltedAs := none

/-- The same state with one of the environment's or the host's values changed. -/
def offering (s : State) (values : List Byte) : State := { s with input := { s.input with pending := values } }
def exhausted (s : State) : State := { s with input := { s.input with exhausted := true } }
def requesting (s : State) : State := { s with inputRequest := true }
def unchecked (s : State) : State := { s with config := { s.config with boundsCheck := false } }
def ceiling (s : State) (n : Nat) : State := { s with config := { s.config with stepCeiling := some n } }
def cells (s : State) (n : Nat) : State := { s with config := { s.config with tapeSize := n } }
def policy (s : State) (p : EofPolicy) : State := { s with config := { s.config with eofPolicy := p } }

/-- The next state of an outcome, and its fault. -/
def next? : Host.Outcome State Fault Refusal → Option State
  | .next t => some t
  | .fault _ => none
  | .refused _ => none

def fault? : Host.Outcome State Fault Refusal → Option Fault
  | .next _ => none
  | .fault f => some f
  | .refused _ => none

def refusal? : Host.Outcome State Fault Refusal → Option Refusal
  | .next _ => none
  | .fault _ => none
  | .refused r => some r

/-! ### Well-formedness -/

theorem test_wf_refuses_wide_immediate : (Instr.addPtr 8192).wf 13 = false := by decide
theorem test_wf_takes_widest_immediate : (Instr.addPtr 8191).wf 13 = true := by decide
theorem test_canonical_refuses_ignored_immediate : (Instr.output 1).canonical = false := by decide
theorem test_canonical_takes_zero_and_used :
    (Instr.input 0).canonical = true ∧ (Instr.condLeft 5).canonical = true := by decide

/-- R70: a lone bracket of either kind, a distance of 0, a wrong distance, a crossed pair. -/
theorem test_program_refuses_ill_formed :
    wellFormedProgram [.condLeft 1] = false ∧ wellFormedProgram [.condRight 1] = false ∧
    wellFormedProgram [.condLeft 0] = false ∧ wellFormedProgram [.condLeft 2, .condRight 1] = false ∧
    wellFormedProgram [.condLeft 2, .condLeft 1, .condRight 1] = false ∧
    wellFormedProgram [.condLeft 2, .condLeft 2, .condRight 2, .condRight 2] = false := by decide

/-- V-B5 and the empty Program (R82). -/
theorem test_program_takes_well_formed :
    wellFormedProgram [.condLeft 3, .condLeft 1, .condRight 1, .condRight 3] = true ∧
    wellFormedProgram [] = true := by decide

/-- R15: one term broken at a time, and the boundary of each. -/
theorem test_config_terms :
    LegalConfig cfg 0 ∧ ¬ LegalConfig { cfg with immBits := 0 } 0 ∧ ¬ LegalConfig { cfg with tapeSize := 0 } 0 ∧
    ¬ LegalConfig { cfg with stepCeiling := some 0 } 0 ∧ LegalConfig { cfg with ipBits := 2 } 3 ∧
    ¬ LegalConfig { cfg with ipBits := 2 } 4 ∧ LegalConfig { cfg with dpBits := 14, tapeSize := 8193 } 0 ∧
    ¬ LegalConfig { cfg with dpBits := 14, tapeSize := 8194 } 0 := by decide

/-! ### Decoding: V-D1 to V-D19, the words written out bit by bit (imm, then opc) -/

theorem test_decode_incWord : decodeTableWord 16 0b0000000000000000 = some (.incWord 0) := by decide
theorem test_decode_incWord_ignored : decodeTableWord 16 0b1111111111111000 = some (.incWord 8191) := by decide
theorem test_decode_decWord : decodeTableWord 16 0b0000000000000001 = some (.decWord 0) := by decide
theorem test_decode_addPtr : decodeTableWord 16 0b0000000000001010 = some (.addPtr 1) := by decide
theorem test_decode_addPtr_widest : decodeTableWord 16 0b1111111111111010 = some (.addPtr 8191) := by decide
theorem test_decode_subPtr : decodeTableWord 16 0b0000000000100011 = some (.subPtr 4) := by decide
theorem test_decode_condLeft : decodeTableWord 16 0b0000000100100100 = some (.condLeft 36) := by decide
theorem test_decode_condRight : decodeTableWord 16 0b0000000100100101 = some (.condRight 36) := by decide
theorem test_decode_input : decodeTableWord 16 0b0000000000000110 = some (.input 0) := by decide
theorem test_decode_output : decodeTableWord 16 0b0000000000000111 = some (.output 0) := by decide

/-- R64: the examples of the rule. -/
theorem test_encode_examples :
    encode (.addPtr 2) = 0x0012 ∧ encode (.condLeft 36) = 0x0124 ∧ encode (.subPtr 8191) = 0xFFFB ∧
    decode 13 0x002D = .condRight 5 := by decide

/-- A number that is no word, a row that is no word, and an image that ends inside a word. -/
theorem test_decode_refuses :
    decodeTableWord 16 0x10000 = none ∧ decodeTableWord 24 0 = none ∧
    (decodeBytes [0x0A]).toOption = none ∧ (decodeBytes [0x12, 0x00, 0x07]).toOption = some (.addPtr 2, [0x07]) := by
  decide

/-! ### Single steps -/

/-- V-C2, with another cell beside it. -/
theorem test_incWord_wraps : next? (step (st (List.replicate 11 0) 10 4 50 [(3, 7), (4, 255)])) =
      some (st (List.replicate 11 0) 11 4 51 [(3, 7)]) := by decide

/-- V-C3. -/
theorem test_decWord_wraps : next? (exec (.decWord 0) (st [1] 0 4 50 [])) =
      some (st [1] 1 4 51 [(4, 255)]) := by decide

/-- V-C8: off the tape without bounds checking. -/
theorem test_incWord_faults_off_the_tape : fault? (step (unchecked (cells (st [0x000A, 0x0000] 1 1 1 []) 1))) =
    some (.uncheckedTapeAccess 1 1) := by decide

/-- V-P5: past the end of the tape. -/
theorem test_addPtr_leaves_tape : next? (step (st [0xFFFA] 0 32767 0 [])) =
      some (st [0xFFFA] 1 40958 1 []) := by decide

/-- V-P8. -/
theorem test_addPtr_zero : next? (step (st [0x0002] 0 7 0 [])) =
      some (st [0x0002] 1 7 1 []) := by decide

/-- V-P2. -/
theorem test_subPtr : next? (step (st [0x001B] 0 5 0 [])) =
      some (st [0x001B] 1 2 1 []) := by decide

/-- V-P6: below zero. -/
theorem test_subPtr_below_zero : next? (step (st [0xFFFB] 0 0 0 [])) =
      some (st [0xFFFB] 1 4294959105 1 []) := by decide

/-- V-B5: the outer bracket skips to the end, Clean. -/
theorem test_condLeft_skips : next? (step (st [0x001C, 0x000C, 0x000D, 0x001D] 0 0 0 [])) =
      some (st [0x001C, 0x000C, 0x000D, 0x001D] 4 0 1 []) := by decide

/-- R130, example: the cell is 1, so the body is entered. -/
theorem test_condLeft_enters : next? (step (st [0x0000, 0x000C, 0x000D] 1 0 1 [(0, 1)])) =
      some (st [0x0000, 0x000C, 0x000D] 2 0 2 [(0, 1)]) := by decide

/-- V-B3, step 5: back to the body. -/
theorem test_condRight_repeats : next? (step (st [0x0000, 0x0000, 0x0014, 0x0001, 0x0015] 4 0 4 [(0, 1)])) =
      some (st [0x0000, 0x0000, 0x0014, 0x0001, 0x0015] 3 0 5 [(0, 1)]) := by decide

/-- V-B2, step 4: the loop is left. -/
theorem test_condRight_leaves : next? (step (st [0x0001, 0x0014, 0x0000, 0x0015] 3 0 3 [])) =
      some (st [0x0001, 0x0014, 0x0000, 0x0015] 4 0 4 []) := by decide

/-- R120, example. -/
theorem test_input_value : next? (step (offering (st [0x0006] 0 0 0 [(0, 9)]) [72])) =
      some (st [0x0006] 1 0 1 [(0, 72)]) := by decide

/-- V-I4: exhausted at once, Sentinel(255); and V-I5: no answer. -/
theorem test_input_sentinel_and_hold :
    next? (step (exhausted (policy (st [0x0006, 0x0007] 0 0 0 []) (.sentinel 255)))) =
      some (exhausted (policy (st [0x0006, 0x0007] 1 0 1 [(0, 255)]) (.sentinel 255))) ∧
    next? (step (st [0x0006, 0x0007] 0 0 0 [])) =
      some (requesting (st [0x0006, 0x0007] 0 0 0 [])) := by decide

/-- R123, example. -/
theorem test_output : next? (exec (.output 0) (st [] 46 0 400 [(0, 72)])) =
      some { st [] 47 0 401 [(0, 72)] with output := [72] } := by decide

/-- V-P12 and V-G4: Fault over Clean and over Forced; the offending index is 0. -/
theorem test_fault_first :
    (ceiling (cells (st [0x000A] 1 1 1 []) 1) 1).status =
      { halted := true, exitClass := some .fault, ip := 1, stepCount := 1, faultIp := some 0 } := by decide

/-- V-G2, V-G3. -/
theorem test_clean_over_forced :
    (ceiling (st [0] 1 0 1 [(0, 1)]) 1).exitClass = some .clean ∧
    (ceiling (st [0, 0] 1 0 1 [(0, 1)]) 1).exitClass = some .forced := by decide

/-- R96 with D27: a core that the ceiling has halted (V-G3), whose ceiling the host then raises; it stays halted, Forced. -/
def raisedCeiling : State :=
  (ceiling (st [0, 0] 1 0 1 [(0, 1)]) 1).hostMove (.configure { cfg with stepCeiling := some 9 })

theorem test_raised_ceiling_does_not_resume :
    next? (step raisedCeiling) = some raisedCeiling ∧ raisedCeiling.guard = true ∧
    raisedCeiling.status = { halted := true, exitClass := some .forced, ip := 1, stepCount := 1, faultIp := none } ∧
    (next? raisedCeiling.resetRun).map State.halted = some false := by decide

/-- R70, R150, R173: the host loads a lone CondLeft or sets a TAPE_SIZE of 0 on a halted core; the reset after it is refused. -/
theorem test_relaunch_is_refused :
    refusal? ((st [] 0 0 0 []).hostMove (.load [0x000C, 0x0000])).resetRun = some .illFormedProgram ∧
    refusal? ((st [] 0 0 0 []).hostMove (.configure { cfg with tapeSize := 0 })).resetRun = some .badConfig := by decide

/-- R124: the count line is there after the run only (V-I6 holds for ever), and outlives a change of the configuration. -/
theorem test_count_line :
    (ceiling (requesting (st [6] 0 0 0 [])) 1).countLine = none ∧
    (ceiling (st [0, 0] 1 0 1 [(0, 1)]) 1).countLine = some "instructions executed: 1" ∧
    (((ceiling (st [0, 0] 1 0 1 [(0, 1)]) 1).hostMove (.configure cfg)).countLine =
      some "instructions executed: 1") := by decide

/-- Log 19: no move of the host on a core stopped at the model-only fault. -/
theorem test_no_move_after_the_fault :
    (unchecked (st [0] 0 32768 0 [])).hostMove (.load []) = unchecked (st [0] 0 32768 0 []) := by decide

/-- R124: the values 72, 105, 0, 255 in both modes. -/
theorem test_render :
    render true [72, 105, 0, 255] = [0x48, 0x69, 0x00, 0xFF] ∧
    render false [72, 105, 0, 255] =
      [0x37, 0x32, 0x20, 0x31, 0x30, 0x35, 0x20, 0x30, 0x20, 0x32, 0x35, 0x35, 0x20] := by decide

/-- T-2, T-19, T-11, T-13: the sources `>><`, `[>[-]<-]`, `][` and `[]]`. -/
theorem test_translate :
    translateSource 13 [0x3E, 0x3E, 0x3C] = .ok [.addPtr 2, .subPtr 1] ∧
    translateSource 13 [0x5B, 0x3E, 0x5B, 0x2D, 0x5D, 0x3C, 0x2D, 0x5D] =
      .ok [.condLeft 7, .addPtr 1, .condLeft 2, .decWord 0, .condRight 2, .subPtr 1, .decWord 0, .condRight 7] ∧
    translateSource 13 [0x5D, 0x5B] = .error (.unbalancedBracket 1) ∧
    translateSource 13 [0x5B, 0x5D, 0x5D] = .error (.unbalancedBracket 2) := ⟨rfl, rfl, rfl, rfl⟩

/-- S-D and T-15 at IMM_BITS = 1 (IMM_CAP 1): a run and a distance of 2. -/
theorem test_translate_overflow :
    translateSource 1 [0x78, 0x3E, 0x3E] = .error (.immediateOverflow 1) ∧
    translateSource 1 [0x5B, 0x2B, 0x5D] = .error (.jumpRangeOverflow 0) := ⟨rfl, rfl⟩

/-- The word placed by the host's harness is the one the next step runs, for a bracket whose partner lies far off too. -/
theorem test_withFetchWord :
    (State.reset.withFetchWord 16 0x0023).current = some (.subPtr 4) ∧
    (State.reset.withFetchWord 16 0x0024).current = some (.condLeft 4) ∧
    wellFormedProgram (codeOf cfg (State.reset.withFetchWord 16 0x0024).program) = true := by decide

/-! ### Witnesses: for every statement with hypotheses, values that meet them, at the boundary of each range -/

/-- The Program of Scenario B, `+[]`, after its first step and before its second. -/
def loop (ip : Nat) (tape : Memory) : State := st [0x0000, 0x000C, 0x000D] ip 0 1 tape

theorem test_loop_launched (ip : Nat) (tape : Memory) : (loop ip tape).Launched := by
  unfold State.Launched State.WellFormed
  show LegalConfig cfg 3 ∧ wordsFit cfg [0x0000, 0x000C, 0x000D] = true ∧
    wellFormedProgram (codeOf cfg [0x0000, 0x000C, 0x000D]) = true
  decide

theorem test_witness_DecodeOfEncode :
    (Instr.condLeft 8191).wf 13 = true ∧ (Instr.output 1).wf 1 = true ∧ (Instr.incWord 0).wf 0 = true := by decide

theorem test_witness_EncodeOfDecode : 0xFFFF < 2 ^ wordBitsOf 13 ∧ 15 < 2 ^ wordBitsOf 1 := by decide

/-- A core to reset: with P1 and P2, without P1, without P2. -/
theorem test_witness_Reset :
    (loop 3 []).Launched ∧ ¬ LegalConfig (cells (loop 3 []) 0).config 3 ∧
    (LegalConfig cfg 1 ∧ ¬ (st [0x000C] 0 0 0 []).WellFormed) ∧
    (∃ t, (loop 3 []).resetRun = .next t) :=
  ⟨test_loop_launched 3 [], by decide, ⟨by decide, fun h => absurd h.2 (by decide)⟩, _, rfl⟩

/-- A halted core in the diagnostics configuration and one outside it. -/
theorem test_witness_Sink :
    (ceiling (st [0] 1 0 1 []) 9).halted = true ∧ (ceiling (st [0] 1 0 1 []) 9).config.boundsCheck = true ∧
    (ceiling (st [0] 1 0 1 []) 9).config.stepCeiling ≠ none ∧ (ceiling (st [0] 1 0 1 []) 9).haltedAs = none ∧
    (loop 3 []).halted = true ∧ (loop 3 []).config.stepCeiling = none ∧ (loop 0 []).halted = false := by decide

theorem test_witness_ByteImage : ∀ w ∈ [0x0000, 0x0124, 0xFFFF], w < 2 ^ 16 := by decide

/-- The core after reset and one with a halt on record, to launch from; one launch for each of the three clauses: TAPE_SIZE
0; a lone bracket and a word of 17 bits; the Program `+[]`. -/
theorem test_witness_LaunchChecks :
    State.reset.halted = true ∧ raisedCeiling.halted = true ∧
    ¬ LegalConfig { cfg with tapeSize := 0 } 0 ∧
    (LegalConfig cfg 1 ∧ ¬ (wordsFit cfg [0x000C] = true ∧ wellFormedProgram (codeOf cfg [0x000C]) = true)) ∧
    (LegalConfig cfg 1 ∧ ¬ (wordsFit cfg [0x10000] = true ∧ wellFormedProgram (codeOf cfg [0x10000]) = true)) ∧
    (LegalConfig cfg 3 ∧ wordsFit cfg [0x0000, 0x000C, 0x000D] = true ∧
      wellFormedProgram (codeOf cfg [0x0000, 0x000C, 0x000D]) = true) := by decide

/-- A store at the last cell; a pointer move from off the tape; another cell. -/
theorem test_witness_TapeAccess :
    Memory.wf [(3, 7), (32767, 1)] = true ∧ (3 : Nat) ≠ 32767 ∧
    (next? (exec (.incWord 0) (st [0] 0 32767 0 []))).isSome = true ∧ (Instr.incWord 0).accessesTape = true ∧
    (next? (exec (.addPtr 1) (st [0] 0 32768 0 []))).isSome = true ∧ (Instr.addPtr 1).accessesTape = false := by decide

theorem test_witness_ProgramStore_runs : Runs 2 (loop 0 []) { loop 2 [(0, 1)] with stepCount := 3 } := by
  unfold Runs
  rfl

theorem test_witness_ProgramStore_step : step (loop 0 []) = .next { loop 1 [(0, 1)] with stepCount := 2 } := by rfl

/-- A word to run at the last index; the end of the Program; a halt on record; a configuration that is not legal. -/
theorem test_witness_StepRuns :
    ((loop 2 []).haltedAs = none ∧ LegalConfig cfg 3 ∧ (loop 2 []).guard = true ∧ (loop 2 []).program[2]? = some 0x000D) ∧
    (LegalConfig cfg 3 ∧ (loop 3 []).guard = false) ∧ raisedCeiling.haltedAs ≠ none ∧
    ((cells (loop 2 []) 0).haltedAs = none ∧ ¬ LegalConfig (cells (loop 2 []) 0).config 3) := by decide

/-- The last word of a Program, in a legal configuration. -/
theorem test_witness_Fetch :
    (loop 2 []).guard = true ∧ (loop 2 []).haltedAs = none ∧ LegalConfig cfg 3 ∧ (loop 2 []).fetch = some 0x000D := by decide

/-- Each term of the guard false by itself, at its boundary; the ceiling just not reached. -/
theorem test_witness_Guard :
    (st [0] 1 0 0 []).guard = false ∧ (st [0] 0 32768 0 []).guard = false ∧ (st [0] 0 32767 0 []).guard = true ∧
    (ceiling (st [0] 0 0 5 []) 5).guard = false ∧ (ceiling (st [0] 0 0 4 []) 5).guard = true ∧
    (ceiling (st [0] 0 0 5 []) 5).config.stepCeiling = some 5 := by decide

/-- A taken bracket, an instruction that is no bracket, and an Input that holds, each with its next state. -/
theorem test_witness_Advance :
    (next? (exec (.condRight 1) (loop 2 [(0, 1)]))).isSome = true ∧
    (next? (exec (.output 0) (loop 0 []))).isSome = true ∧
    next? (exec (.input 0) (loop 0 [])) = some (requesting (loop 0 [])) ∧ (loop 0 []).input.request = none ∧
    (next? (exec (.input 0) (offering (loop 0 []) [0]))).isSome = true := by decide

/-- The five outcomes. No request is outstanding in these states. -/
theorem test_witness_StepOutcomes :
    (loop 3 []).stepKind = .halts .clean ∧ (st [6] 0 0 0 []).stepKind = .holds ∧ (loop 0 []).stepKind = .executes ∧
    (unchecked (st [0] 0 32768 0 [])).stepKind = .faults (.uncheckedTapeAccess 0 32768) ∧
    (st [0x000C] 0 0 0 []).stepKind = .refuses .illFormedProgram ∧
    (cells (st [0] 0 0 0 []) 0).stepKind = .refuses .badConfig := by decide

theorem test_no_request (s : State) (h : s.inputRequest = false) : s.RequestWf := by
  intro hr
  rw [h] at hr
  cases hr

/-- An outstanding request in a state that meets the invariant. -/
theorem test_held_request : (requesting (st [6] 0 32767 0 [])).RequestWf := fun _ => ⟨by decide, 0, by decide⟩

/-- A halted core with a legal configuration, one with a halt on record and an illegal configuration, and a running core. -/
theorem test_witness_HaltedCore :
    ((loop 3 []).Meaningful ∧ (loop 3 []).halted = true) ∧
    (((loop 3 []).hostMove (.configure { cfg with tapeSize := 0 })).Meaningful ∧
      ¬ LegalConfig { cfg with tapeSize := 0 } 3 ∧
      ((loop 3 []).hostMove (.configure { cfg with tapeSize := 0 })).halted = true) ∧
    (loop 0 []).halted = false := by decide

/-- A class on record. -/
theorem test_witness_RecordedClass : raisedCeiling.haltedAs.map HaltRecord.exitClass = some .forced := by decide

/-- No halt on record, the registers in their ranges, and the three classes, Fault with the other two terms false as
well. -/
theorem test_witness_ExitClasses :
    ((ceiling (cells (st [0x000A] 1 1 1 []) 1) 1).haltedAs = none ∧ (ceiling (st [0] 1 0 1 []) 1).haltedAs = none ∧
      (ceiling (st [0, 0] 1 0 1 []) 1).haltedAs = none) ∧
    ((ceiling (cells (st [0x000A] 1 1 1 []) 1) 1).RegistersWf ∧
      (ceiling (cells (st [0x000A] 1 1 1 []) 1) 1).halted = true ∧
      (ceiling (cells (st [0x000A] 1 1 1 []) 1) 1).exitClass = some .fault) ∧
    ((ceiling (st [0] 1 0 1 []) 1).RegistersWf ∧ (ceiling (st [0] 1 0 1 []) 1).halted = true ∧
      (ceiling (st [0] 1 0 1 []) 1).exitClass = some .clean) ∧
    ((ceiling (st [0, 0] 1 0 1 []) 1).RegistersWf ∧ (ceiling (st [0, 0] 1 0 1 []) 1).halted = true ∧
      (ceiling (st [0, 0] 1 0 1 []) 1).exitClass = some .forced) := by
  refine ⟨⟨rfl, rfl, rfl⟩, ⟨⟨by decide, by decide, ?_⟩, by decide, by decide⟩,
    ⟨⟨by decide, by decide, ?_⟩, by decide, by decide⟩,
    ⟨⟨by decide, by decide, ?_⟩, by decide, by decide⟩⟩ <;>
  · intro n hn
    cases hn
    decide

/-- V-P12 after its one step. -/
theorem test_witness_FaultIp :
    (cells (st [0x000A] 1 1 1 []) 1).haltedAs = none ∧ (cells (st [0x000A] 1 1 1 []) 1).FaultWf ∧
    (cells (st [0x000A] 1 1 1 []) 1).exitClass = some .fault :=
  ⟨rfl, fun _ _ => ⟨0, .addPtr 1, by decide⟩, by decide⟩

/-- V-P4, and a state without bounds checking. -/
theorem test_witness_OutOfBounds :
    (st [0x000A] 0 32767 0 []).config.boundsCheck = true ∧ (st [0x000A] 0 32767 0 []).dp < 32768 ∧
    next? (step (st [0x000A] 0 32767 0 [])) = some (st [0x000A] 1 32768 1 []) ∧
    32768 ≤ (st [0x000A] 1 32768 1 []).dp ∧ (st [0x000A] 1 32768 1 []).haltedAs = none ∧
    (unchecked (st [0] 0 32768 0 [])).haltedAs = none ∧ (unchecked (st [0] 0 32768 0 [])).config.boundsCheck = false ∧
    LegalConfig { cfg with tapeSize := 1 } 1 := by decide

/-- An Input that holds at the last cell: the invariant with a request outstanding, and a step from it. -/
theorem test_witness_Invariant :
    (ceiling (requesting (st [6] 0 32767 0 [(2, 5)])) 1).Wf ∧
    step (ceiling (requesting (st [6] 0 32767 0 [(2, 5)])) 1) =
      .next (ceiling (requesting (st [6] 0 32767 0 [(2, 5)])) 1) := by
  refine ⟨⟨⟨by decide, by decide, fun n hn => ?_⟩, ⟨by decide, by decide⟩, by decide, fun _ => ⟨by decide, 0, by decide⟩⟩,
    rfl⟩
  cases hn
  decide

/-- The move that leaves the tape: the record holds before it, and the step is taken. -/
theorem test_witness_FaultRecord :
    (st [0x000A] 0 32767 0 []).FaultWf ∧ step (st [0x000A] 0 32767 0 []) = .next (st [0x000A] 1 32768 1 []) :=
  ⟨fun _ h => absurd h (by decide), rfl⟩

/-- The last cell of the tape and the first cell that does not exist; the checked instruction as the current one. -/
theorem test_witness_IncWord_DecWord :
    0xFFF8 % 8 = 0 ∧ 0x0001 % 8 = 1 ∧
    Memory.wf [(32767, 255)] = true ∧ (st [0] 0 32767 0 [(32767, 255)]).dp < 32768 ∧
    32768 ≤ (unchecked (st [0] 0 32768 0 [])).dp ∧
    (st [0] 0 32767 0 []).current = some (.incWord 0) ∧ (st [1] 0 32767 0 []).current = some (.decWord 0) := by decide

/-- Net counts that are and are not a multiple of 256, on a zero cell. -/
theorem test_witness_CellArithmetic :
    (∀ i ∈ [Instr.incWord 0, Instr.decWord 0, Instr.decWord 0], i.opc = 0 ∨ i.opc = 1) ∧
    (256 : Int) ∣ netIncrements [.incWord 0, .decWord 0] ∧ ¬ (256 : Int) ∣ netIncrements [.decWord 0] ∧
    Memory.wf [] = true ∧ Memory.read [] 32767 = 0 ∧
    (next? (exec (.output 0) (st [] 0 32767 0 []))).isSome = true ∧
    (next? (exec (.incWord 0) (st [] 0 32767 0 []))).isSome = true := by decide

/-- The encodings, the longest run and the symbol that ends it, the moves that leave the tape, the widest move. -/
theorem test_witness_AddPtr :
    0x0012 % 8 = 2 ∧ 8190 + 1 ≤ 8191 ∧ symbolOf 0x2B = some .plus ∧ Symbol.plus ≠ .right ∧ Symbol.plus ≠ .left ∧
    (Except.toOption (translateSource 13 [0x3E])) = some [.addPtr 1] ∧ .addPtr 1 ∈ [Instr.addPtr 1] ∧
    (st [0xFFFA] 0 32767 0 []).current = some (.addPtr 8191) ∧
    next? (step (st [0xFFFA] 0 32767 0 [])) = some (st [0xFFFA] 1 40958 1 []) ∧ 32768 ≤ 40958 ∧
    (st [] 0 4294967295 0 []).dp < 2 ^ 32 ∧ LegalConfig cfg 1 ∧ 8191 ≤ cfg.immCap := by decide

theorem test_witness_SubPtr :
    0x001B % 8 = 3 ∧ (Except.toOption (translateSource 13 [0x3C])) = some [.subPtr 1] ∧ .subPtr 1 ∈ [Instr.subPtr 1] ∧
    (st [0x000B] 0 0 0 []).current = some (.subPtr 1) ∧
    next? (step (st [0x000B] 0 0 0 [])) = some (st [0x000B] 1 4294967295 1 []) ∧ 32768 ≤ 4294967295 ∧
    LegalConfig cfg 1 ∧ (st [] 0 0 0 []).dp < 8191 ∧ 8191 ≤ cfg.immCap ∧ 5 ≤ (st [] 0 5 0 []).dp := by decide

theorem test_witness_OppositeMoves : (st [] 0 4294967295 0 []).dp < 2 ^ 32 := by decide

theorem test_witness_EveryOutOfBoundsMove :
    LegalConfig cfg 0 ∧ (st [] 0 32767 0 []).dp < 32768 ∧ 8191 ≤ cfg.immCap ∧
    (next? (exec (.addPtr 8191) (st [] 0 32767 0 []))).isSome = true ∧
    (next? (exec (.subPtr 8191) (st [] 0 0 0 []))).isSome = true := by decide

/-- A next state of every instruction, for the frames. -/
theorem test_witness_Frames :
    ([Instr.incWord 1, .decWord 0, .addPtr 2, .subPtr 2, .condLeft 1, .condRight 1, .input 0, .output 3].all fun i =>
      (next? (exec i (loop 1 [(0, 1)]))).isSome) = true := by decide

/-- A value of 0 to deliver, and exhaustion under either policy. -/
theorem test_witness_Input :
    0xFFFE % 8 = 6 ∧ 32768 ≤ (unchecked (st [6] 0 32768 0 [])).dp ∧ (st [6] 0 32767 0 []).current = some (.input 0) ∧
    Memory.wf [(32767, 9)] = true ∧ (st [6] 0 32767 0 [(32767, 9)]).dp < 32768 ∧
    (offering (st [6] 0 32767 0 []) [0, 65]).input.pending = 0 :: [65] ∧
    (exhausted (st [6] 0 32767 0 [])).input.exhausted = true ∧ (exhausted (st [6] 0 32767 0 [])).input.pending = [] ∧
    (exhausted (st [6] 0 32767 0 [])).config.eofPolicy = .noWrite ∧
    (exhausted (policy (st [6] 0 32767 0 []) (.sentinel 255))).config.eofPolicy = .sentinel 255 := by decide

/-- V-I6: an unanswered Input under a ceiling of 1; and a state whose step holds. -/
theorem test_witness_InputHolds :
    LegalConfig { cfg with stepCeiling := some 1 } 1 ∧ (ceiling (st [6] 0 32767 0 []) 1).current = some (.input 0) ∧
    (ceiling (st [6] 0 32767 0 []) 1).dp < 32768 ∧
    (ceiling (st [6] 0 32767 0 []) 1).input = { pending := [], exhausted := false } ∧
    (ceiling (st [6] 0 32767 0 []) 1).stepKind = .holds := by decide

theorem test_witness_Exhaustion :
    (exhausted (st [6] 0 32767 0 [])).input = { pending := [], exhausted := true } ∧
    Runs 1 (exhausted (st [6] 0 32767 0 [])) (exhausted (st [6] 1 32767 1 [])) ∧
    LegalConfig cfg 1 ∧ (exhausted (st [6] 0 32767 0 [])).current = some (.input 0) := by
  refine ⟨by decide, ?_, by decide, by decide⟩
  unfold Runs
  rfl

theorem test_witness_Output :
    0x000F % 8 = 7 ∧ (st [7] 0 32767 0 []).dp < 32768 ∧ 32768 ≤ (unchecked (st [7] 0 32768 0 [])).dp ∧
    (st [7] 0 32767 0 []).current = some (.output 0) := by decide

/-- An Input and an Output in one run. -/
theorem test_witness_Channels :
    Runs 2 (offering (st [6, 7] 0 0 0 []) [65]) { st [6, 7] 2 0 2 [(0, 65)] with output := [65] } := by
  unfold Runs
  rfl

/-- A skip to the last index and one past it, the fall into the body, and the current bracket of a launched state. -/
theorem test_witness_CondLeft :
    0x000C % 8 = 4 ∧ (loop 1 []).current = some (.condLeft 1) ∧ (loop 1 []).dp < 32768 ∧
    (loop 1 []).tape.read 0 = 0 ∧ 1 + 1 < (loop 1 []).progLen ∧ 1 + 1 + 1 = (loop 1 []).progLen ∧
    (loop 1 [(0, 1)]).tape.read 0 ≠ 0 ∧ 32768 ≤ (unchecked (st [0x000C, 0x000D] 0 32768 0 [])).dp := by decide

/-- The back-jump of the empty body, a distance equal to `ip`, and the exit at the last index. -/
theorem test_witness_CondRight :
    0x000D % 8 = 5 ∧ (loop 2 [(0, 1)]).current = some (.condRight 1) ∧ (loop 2 [(0, 1)]).dp < 32768 ∧
    (loop 2 [(0, 1)]).tape.read 0 ≠ 0 ∧ 2 ≤ (loop 2 [(0, 1)]).ip ∧
    next? (step (loop 2 [(0, 1)])) = some { loop 2 [(0, 1)] with stepCount := 2 } ∧
    (loop 2 []).current = some (.condRight 1) ∧ (loop 2 []).tape.read 0 = 0 ∧ 2 + 1 = (loop 2 []).progLen := by decide

theorem test_witness_Landing :
    step (loop 1 []) = .next { loop 3 [] with stepCount := 2 } ∧ (loop 1 []).ip ≤ (loop 1 []).progLen ∧
    step (loop 2 [(0, 1)]) = .next { loop 2 [(0, 1)] with stepCount := 2 } := ⟨rfl, by decide, rfl⟩

theorem test_witness_LaunchedPrograms : (loop 0 []).Launched ∧ (loop 0 []).config.boundsCheck = true :=
  ⟨test_loop_launched 0 [], rfl⟩

/-- A ceiling of 1, one step, no hold before it. -/
theorem test_witness_Ceiling :
    (ceiling (st [0, 0] 0 0 0 []) 1).config.stepCeiling = some 1 ∧
    (∀ k u, k < 1 → Runs k (ceiling (st [0, 0] 0 0 0 []) 1) u → u.stepKind ≠ .holds) ∧
    1 ≤ (ceiling (st [0, 0] 0 0 0 []) 1).stepCount + 1 ∧
    Runs 1 (ceiling (st [0, 0] 0 0 0 []) 1) (ceiling (st [0, 0] 1 0 1 [(0, 1)]) 1) := by
  refine ⟨rfl, fun k u hk h => ?_, by decide, ?_⟩
  · obtain rfl : k = 0 := by omega
    unfold Runs at h
    cases h
    decide
  · unfold Runs
    rfl

/-- A run of the Program `,` under a ceiling of 1: step 0 holds, the value 65 comes before step 1, which reads it; then the
core is halted. -/
def answeredRun : Nat → State
  | 0 => ceiling (st [6] 0 0 0 []) 1
  | 1 => ceiling (requesting (st [6] 0 0 0 [])) 1
  | _ + 2 => ceiling (st [6] 1 0 1 [(0, 65)]) 1

def answersAtOne : Nat → List InputMove
  | 1 => [.offer 65]
  | _ => []

theorem test_answeredRun_is_run : RunUnder answersAtOne answeredRun := by
  intro n
  match n with
  | 0 => rfl
  | 1 => rfl
  | _ + 2 =>
    show step (ceiling (st [6] 1 0 1 [(0, 65)]) 1) = .next (ceiling (st [6] 1 0 1 [(0, 65)]) 1)
    rfl

theorem test_answeredRun_is_answered : InputAnswers answersAtOne answeredRun := by
  constructor
  · intro n h
    match n with
    | 0 => cases h
    | 1 => exact ⟨1, Nat.le_refl 1, rfl⟩
    | _ + 2 => cases h
  · intro m n _ h
    match m with
    | 0 => cases h
    | 1 => cases h
    | _ + 2 => cases h

theorem test_witness_AnsweredRun :
    (answeredRun 0).config.stepCeiling = some 1 ∧ (answeredRun 0).stepCount ≤ 1 ∧ (answeredRun 1).inputRequest = true ∧
    (answeredRun 0).ResetState :=
  ⟨rfl, by decide, rfl, rfl, rfl, rfl, rfl, rfl, rfl, rfl⟩

/-- A channel that is exhausted, a launched start, and an Output that is executed. -/
theorem test_witness_Environment :
    (exhausted (loop 0 [])).input.exhausted = true ∧ RunUnder answersAtOne answeredRun ∧ (answeredRun 0).Launched ∧
    (next? (exec (.output 0) (answeredRun 2))).isSome = true := by
  refine ⟨rfl, test_answeredRun_is_run, ?_, by decide⟩
  unfold State.Launched State.WellFormed
  decide

/-- A fault and a refusal for the clauses about them; `test_witness_ProgramStore_step` is the next state. -/
theorem test_witness_AsciiOutput :
    fault? (step (unchecked (st [0] 0 32768 0 []))) = some (.uncheckedTapeAccess 0 32768) ∧
    refusal? (step (cells (st [0] 0 0 0 []) 0)) = some .badConfig := by decide

theorem test_witness_Diagnostics :
    Runs 1 (ceiling (st [0] 0 32767 0 []) 2) (ceiling (st [0] 1 32767 1 [(32767, 1)]) 2) ∧
    ∀ k u, k < 1 → Runs k (ceiling (st [0] 0 32767 0 []) 2) u → u.dp < u.config.tapeSize ∧ u.belowCeiling = true := by
  refine ⟨?_, fun k u hk h => ?_⟩
  · unfold Runs
    rfl
  · obtain rfl : k = 0 := by omega
    unfold Runs at h
    cases h
    decide

/-- The run `> x >` before `+`, at IMM_CAP 2 and at IMM_CAP 1; and a run at the end of the source. -/
theorem test_witness_PointerMoveRun :
    Symbol.right.folds = true ∧ symbolOf 0x3E = some .right ∧
    (∀ b ∈ ([0x78, 0x3E] : List Byte), symbolOf b = none ∨ symbolOf b = some .right) ∧
    symbolOf 0x2B = some .plus ∧ Symbol.plus ≠ .right ∧
    2 = ([0x3E, 0x78, 0x3E] : List Byte).countP (fun b => symbolOf b == some .right) ∧ 2 ≤ 2 ∧ 1 < 2 := by decide

theorem test_witness_OtherSymbols :
    (∀ b ∈ ([0x2B, 0x78, 0x5B] : List Byte), ∀ s, symbolOf b = some s → s.folds = false) ∧
    symbolOf 0x78 = none ∧ symbolOf 0x2C = some .comma ∧ Symbol.comma.folds = false := by
  refine ⟨fun b hb s hs => ?_, by decide⟩
  fin_cases hb <;> cases hs <;> rfl

/-- `[[]` with no match for the outer bracket, and `[+]` at IMM_CAP 1: no CondLeft stands before index 0. -/
theorem test_witness_FirstFailing :
    kindAt [.condLeft 0, .condLeft 0, .condRight 0] 0 .opens = true ∧
    matchOf [.condLeft 0, .condLeft 0, .condRight 0] 0 = none ∧
    kindAt [.condLeft 0, .incWord 0, .condRight 0] 0 .opens = true ∧
    matchOf [.condLeft 0, .incWord 0, .condRight 0] 0 = some 2 ∧ 1 < 2 - 0 := by decide

/-- `[+]` at IMM_CAP 1, its only CondLeft at index 0. -/
theorem test_witness_JumpRange :
    kindAt [.condLeft 0, .incWord 0, .condRight 0] 0 .opens = true ∧
    matchOf [.condLeft 0, .incWord 0, .condRight 0] 0 = some 2 ∧ 1 < 2 - 0 ∧
    ∀ k < 0, kindAt [.condLeft 0, .incWord 0, .condRight 0] k .opens = true →
      ∃ m, matchOf [.condLeft 0, .incWord 0, .condRight 0] k = some m ∧ m - k ≤ 1 :=
  ⟨by decide, by decide, by decide, fun _ hk => absurd hk (Nat.not_lt_zero _)⟩

/-- `]`: there is no CondLeft at all, and no CondRight before index 0. -/
theorem test_witness_Stray :
    (∀ k, kindAt [.condRight 0] k .opens = true → False) ∧ kindAt [.condRight 0] 0 .closes = true := by
  refine ⟨fun k h => ?_, by decide⟩
  rcases k with - | k
  · revert h
    decide
  · simp [kindAt] at h

theorem test_witness_Symmetry :
    (pass2 3 [.condLeft 0, .condLeft 0, .condRight 0, .condRight 0]).toOption =
      some [.condLeft 3, .condLeft 1, .condRight 1, .condRight 3] ∧
    kindAt [.condLeft 0, .condLeft 0, .condRight 0, .condRight 0] 1 .opens = true ∧
    kindAt [.condLeft 0, .condLeft 0, .condRight 0, .condRight 0] 3 .closes = true ∧
    (pass2 3 [.incWord 0]).toOption = some [.incWord 0] ∧ kindAt [.incWord 0] 0 .plain = true := by decide

/-- A source with adjacent moves in opposite directions, one that fails, and a legal configuration for the first. -/
theorem test_witness_Translated :
    (Except.toOption (translateSource 13 [0x3E, 0x3E, 0x3C, 0x3E])) = some [.addPtr 2, .subPtr 1, .addPtr 1] ∧
    (Except.toOption (translateSource 13 [0x5D])) = none ∧ LegalConfig cfg 3 ∧ cfg.boundsCheck = true := by decide

end Sys2Proof.Tests
end

/-! Proofs of the scope statements (00_scope.md): the outcomes of a step (R18), and the parameter the core does not read
(R11). -/

section

namespace Sys2Proof.Machine

/-! ### The outcomes of a step -/

/-- An effect counts no step: only the advance does (R94). -/
theorem Effect.stepCount_eq {s u : State} {i : Instr} (h : Effect s i u) : u.stepCount = s.stepCount := by
  cases h <;> simp

/-- An instruction that executes raises no request: an Input ends its own, every other one leaves it (R31, R120). -/
theorem Effect.inputRequest_eq {s u : State} {i : Instr} (h : Effect s i u) :
    u.inputRequest = s.inputRequest ∨ ((∃ imm, i = .input imm) ∧ u.inputRequest = false) := by
  cases h with
  | input imm r ch hd hr => exact .inr ⟨⟨imm, rfl⟩, by simp⟩
  | _ => exact .inl rfl

/-- Where a request is outstanding only at an Input, no request is outstanding once the instruction has its effect. -/
theorem Effect.inputRequest_false {s u : State} {i : Instr} (hs : s.RequestWf) (hi : s.current = some i)
    (h : Effect s i u) : u.inputRequest = false := by
  rcases h.inputRequest_eq with hu | ⟨-, hu⟩
  · rw [hu, ← Bool.not_eq_true]
    intro hreq
    obtain ⟨-, imm, hin⟩ := hs hreq
    obtain rfl : Instr.input imm = i := Option.some.inj (hin.symm.trans hi)
    cases h with
    | input imm r ch hd hr => simp [hreq] at hu
  · exact hu

theorem State.halted_of_current {s : State} {i : Instr} (h : s.current = some i) : s.halted = false := by
  simp [State.halted, ((State.current_eq_some s i).1 h).1]

/-- A step's result beside its named outcome (R18), one constructor per way a step can go. -/
inductive StepCase (s : State) : Result → StepKind → Prop where
  | badConfig : ¬ s.Meaningful → StepCase s (.refused .badConfig) (.refuses .badConfig)
  | halts : s.Meaningful → s.halted = true → StepCase s (.next s) (.halts s.haltClass)
  | holds (i : Instr) (t : State) : s.Meaningful → s.current = some i → exec i s = .next t →
      t.inputRequest = true → StepCase s (.next t) .holds
  | executes (i : Instr) (t : State) : s.Meaningful → s.current = some i → exec i s = .next t →
      t.inputRequest = false → StepCase s (.next t) .executes
  | faults (i : Instr) (f : Fault) : s.Meaningful → s.current = some i → exec i s = .fault f →
      StepCase s (.fault f) (.faults f)
  | refuses (i : Instr) (r : Refusal) : s.Meaningful → s.current = some i → exec i s = .refused r →
      StepCase s (.refused r) (.refuses r)

/-- The named outcome of a step and the step itself go the same way. -/
theorem State.stepCase (s : State) : StepCase s (step s) s.stepKind := by
  unfold step cycle State.stepKind
  by_cases hm : s.Meaningful
  · rw [if_pos hm, if_pos hm]
    cases hc : s.current with
    | none => exact .halts hm ((State.halted_iff s).2 ((State.current_eq_none s).1 hc))
    | some i =>
      cases he : exec i s with
      | next t =>
        cases hr : t.inputRequest with
        | true => simpa [he, hr] using StepCase.holds i t hm hc he hr
        | false => simpa [he, hr] using StepCase.executes i t hm hc he hr
      | fault f => simpa [he] using StepCase.faults i f hm hc he
      | refused r => simpa [he] using StepCase.refuses i r hm hc he
  · rw [if_neg hm, if_neg hm]
    exact .badConfig hm

theorem StepCase.of_halts {s : State} {o : Result} {c : ExitClass} (h : StepCase s o (.halts c)) :
    o = .next s ∧ s.exitClass = some c := by
  cases h with
  | halts hm hh => exact ⟨rfl, (State.exitClass_eq_some ..).2 ⟨hh, rfl⟩⟩

/-- An outcome named a hold is the hold of R121: an effect would have left no request outstanding. -/
theorem StepCase.of_holds {s : State} {o : Result} (hs : s.RequestWf) (h : StepCase s o .holds) :
    o = .next { s with inputRequest := true } ∧ s.halted = false := by
  cases h with
  | holds i t hm hc he hr =>
    rcases (exec_eq_next ..).1 he with ⟨u, hu, rfl⟩ | ⟨-, rfl⟩
    · simp [hu.inputRequest_false hs hc] at hr
    · exact ⟨rfl, State.halted_of_current hc⟩

theorem StepCase.of_executes {s : State} {o : Result} (h : StepCase s o .executes) :
    ∃ t, o = .next t ∧ t.stepCount = s.stepCount + 1 ∧ t.inputRequest = false ∧ s.halted = false := by
  cases h with
  | executes i t hm hc he hr =>
    refine ⟨t, rfl, ?_, hr, State.halted_of_current hc⟩
    rcases (exec_eq_next ..).1 he with ⟨u, hu, rfl⟩ | ⟨-, rfl⟩
    · simp [hu.stepCount_eq]
    · simp at hr

theorem StepCase.of_faults {s : State} {o : Result} {f : Fault} (h : StepCase s o (.faults f)) : o = .fault f := by
  cases h with
  | faults i f hm hc he => rfl

theorem StepCase.of_refuses {s : State} {o : Result} {r : Refusal} (h : StepCase s o (.refuses r)) :
    o = .refused r := by
  cases h with
  | badConfig hm => rfl
  | refuses i r hm hc he => rfl

/-- Settles O14: the step and its named outcome go the same way (`State.stepCase`), read off per outcome. -/
theorem stepOutcomesAreThoseOfTheSpec : Obligations.StepOutcomesAreThoseOfTheSpec := by
  unfold Obligations.StepOutcomesAreThoseOfTheSpec
  intro s hs
  exact ⟨fun c hk => (hk ▸ s.stepCase).of_halts, fun hk => (hk ▸ s.stepCase).of_holds hs,
    fun hk => (hk ▸ s.stepCase).of_executes, fun f hk => (hk ▸ s.stepCase).of_faults,
    fun r hk => (hk ▸ s.stepCase).of_refuses⟩

/-! ### An instruction under another configuration -/

/-- The state with its configuration changed by `g`. -/
def State.mapConfig (g : Config → Config) (s : State) : State := { s with config := g s.config }

/-- `g` leaves the three parameters that instructions read: DP_BITS, TAPE_SIZE and EOF_POLICY. -/
structure KeepsExecParams (g : Config → Config) : Prop where
  dpBits : ∀ c, (g c).dpBits = c.dpBits
  tapeSize : ∀ c, (g c).tapeSize = c.tapeSize
  eofPolicy : ∀ c, (g c).eofPolicy = c.eofPolicy

section

variable {g : Config → Config} (hg : KeepsExecParams g)
include hg

theorem KeepsExecParams.pointerUp_eq (c : Config) (dp imm : Nat) : pointerUp (g c) dp imm = pointerUp c dp imm := by
  simp only [pointerUp, cellDistance, hg.dpBits]

theorem KeepsExecParams.pointerDown_eq (c : Config) (dp imm : Nat) :
    pointerDown (g c) dp imm = pointerDown c dp imm := by
  simp only [pointerDown, cellDistance, hg.dpBits]

theorem KeepsExecParams.receive_mapConfig (s : State) (r : InputAnswer) :
    (s.mapConfig g).receive r = (s.receive r).mapConfig g := by
  cases r with
  | value v => rfl
  | exhausted =>
    simp only [State.receive, State.mapConfig, hg.eofPolicy]
    split <;> rfl

/-- An effect is the same under the changed configuration. -/
theorem Effect.mapConfig {s u : State} {i : Instr} (h : Effect s i u) :
    Effect (s.mapConfig g) i (u.mapConfig g) := by
  have tape : s.dp < s.config.tapeSize → (s.mapConfig g).dp < (s.mapConfig g).config.tapeSize :=
    fun hd => (hg.tapeSize s.config).symm ▸ hd
  cases h with
  | incWord imm hd => exact .incWord (s := s.mapConfig g) imm (tape hd)
  | decWord imm hd => exact .decWord (s := s.mapConfig g) imm (tape hd)
  | addPtr imm =>
    rw [← hg.pointerUp_eq]
    exact .addPtr (s := s.mapConfig g) imm
  | subPtr imm =>
    rw [← hg.pointerDown_eq]
    exact .subPtr (s := s.mapConfig g) imm
  | skip imm hd hz hl => exact .skip (s := s.mapConfig g) imm (tape hd) hz hl
  | enter imm hd hz => exact .enter imm (tape hd) hz
  | back imm hd hz hl => exact .back (s := s.mapConfig g) imm (tape hd) hz hl
  | leave imm hd hz => exact .leave imm (tape hd) hz
  | input imm r ch hd hr =>
    rw [← hg.receive_mapConfig]
    exact .input (s := s.mapConfig g) imm r ch (tape hd) hr
  | output imm hd => exact .output (s := s.mapConfig g) imm (tape hd)

theorem exec_next_mapConfig {s t : State} {i : Instr} (h : exec i s = .next t) :
    exec i (s.mapConfig g) = .next (t.mapConfig g) := by
  refine (exec_eq_next ..).2 ?_
  rcases (exec_eq_next ..).1 h with ⟨u, hu, rfl⟩ | ⟨⟨hin, hd, hr⟩, rfl⟩
  · exact .inl ⟨_, hu.mapConfig hg, rfl⟩
  · exact .inr ⟨⟨hin, (hg.tapeSize s.config).symm ▸ hd, hr⟩, rfl⟩

theorem exec_fault_mapConfig {s : State} {i : Instr} {f : Fault} (h : exec i s = .fault f) :
    exec i (s.mapConfig g) = .fault f := by
  obtain ⟨ha, hd, rfl⟩ := (exec_eq_fault ..).1 h
  exact (exec_eq_fault ..).2 ⟨ha, (hg.tapeSize s.config).symm ▸ hd, rfl⟩

theorem exec_refused_mapConfig {s : State} {i : Instr} {r : Refusal} (h : exec i s = .refused r) :
    exec i (s.mapConfig g) = .refused r := by
  obtain ⟨rfl, hd, hj⟩ := (exec_eq_refused ..).1 h
  exact (exec_eq_refused ..).2 ⟨rfl, (hg.tapeSize s.config).symm ▸ hd, hj⟩

end

/-! ### The output mode flag -/

/-- The configuration with the output mode flag set to `b` (R11). -/
def Config.setAscii (b : Bool) (c : Config) : Config := { c with asciiOutput := b }

theorem State.withAscii_eq_mapConfig (s : State) (b : Bool) : s.withAscii b = s.mapConfig (Config.setAscii b) := rfl

/-- No instruction reads the output mode flag. -/
theorem keepsExecParams_setAscii (b : Bool) : KeepsExecParams (Config.setAscii b) :=
  ⟨fun _ => rfl, fun _ => rfl, fun _ => rfl⟩

/-- The guard, the fetch and the decoder do not read it. -/
theorem State.mapConfig_setAscii_current (s : State) (b : Bool) :
    (s.mapConfig (Config.setAscii b)).current = s.current := rfl

theorem State.mapConfig_setAscii_running (s : State) (b : Bool) :
    (s.mapConfig (Config.setAscii b)).running = s.running := rfl

/-- The conditions of R15 do not name it. -/
theorem State.mapConfig_setAscii_meaningful (s : State) (b : Bool) :
    (s.mapConfig (Config.setAscii b)).Meaningful ↔ s.Meaningful := Iff.rfl

theorem State.mapConfig_setAscii_legalConfig (s : State) (b : Bool) :
    LegalConfig (s.mapConfig (Config.setAscii b)).config (s.mapConfig (Config.setAscii b)).progLen ↔
      LegalConfig s.config s.progLen := Iff.rfl

/-- Settles O45: the flag is read neither by what decides which instruction executes nor by that instruction. -/
theorem asciiOutputIsNotRead : Obligations.AsciiOutputIsNotRead := by
  unfold Obligations.AsciiOutputIsNotRead
  intro b s
  have hg := keepsExecParams_setAscii b
  simp only [State.withAscii_eq_mapConfig, step_eq_next, step_eq_fault, step_eq_refused,
    State.mapConfig_setAscii_current, State.mapConfig_setAscii_running, State.mapConfig_setAscii_meaningful,
    State.mapConfig_setAscii_legalConfig]
  refine ⟨?_, ?_, ?_⟩
  · rintro t ⟨hm, ⟨hr, rfl⟩ | ⟨i, hc, he⟩⟩
    · exact ⟨hm, .inl ⟨hr, rfl⟩⟩
    · exact ⟨hm, .inr ⟨i, hc, exec_next_mapConfig hg he⟩⟩
  · rintro f ⟨hl, i, hc, he⟩
    exact ⟨hl, i, hc, exec_fault_mapConfig hg he⟩
  · rintro r (hm | ⟨hl, i, hc, he⟩)
    · exact .inl hm
    · exact .inr ⟨hl, i, hc, exec_refused_mapConfig hg he⟩

end Sys2Proof.Machine

end

/-! Proofs of the state statements (10_state.md): the invariant that every step keeps (R21 to R24, R31), the reset state
(R32), the frame of a pointer move (R22) and the step counter (R23). -/

section

namespace Sys2Proof.Machine

/-! ### What an effect does to one field -/

theorem Effect.sameStore {s u : State} {i : Instr} (h : Effect s i u) : SameStore s u := by
  cases h with
  | input imm r ch hd hr => exact ⟨by simp, by simp⟩
  | _ => exact ⟨rfl, rfl⟩

/-- A pointer move writes `dp` and nothing else (R110, R111). -/
theorem Effect.eq_of_pointerMove {s u : State} {i : Instr} (h : Effect s i u) (hi : i.opc = 2 ∨ i.opc = 3) :
    ∃ d, u = { s with dp := d } := by
  cases h with
  | addPtr imm => exact ⟨_, rfl⟩
  | subPtr imm => exact ⟨_, rfl⟩
  | _ => simp [Instr.opc] at hi

/-- No other instruction writes `dp` (R22). -/
theorem Effect.dp_eq {s u : State} {i : Instr} (h : Effect s i u) (h2 : i.opc ≠ 2) (h3 : i.opc ≠ 3) :
    u.dp = s.dp := by
  cases h with
  | addPtr imm => exact absurd rfl h2
  | subPtr imm => exact absurd rfl h3
  | input imm r ch hd hr => simp
  | _ => rfl

/-- A pointer move reduces its result modulo 2^DP_BITS (R112), so `dp` stays in its width. -/
theorem Effect.dp_lt {s u : State} {i : Instr} (h : Effect s i u) (hdp : s.dp < 2 ^ s.config.dpBits) :
    u.dp < 2 ^ s.config.dpBits := by
  cases h with
  | addPtr imm => exact Nat.mod_lt _ (Nat.two_pow_pos _)
  | subPtr imm => exact Nat.mod_lt _ (Nat.two_pow_pos _)
  | input imm r ch hd hr => simpa using hdp
  | _ => exact hdp

/-- Before the advance `ip` names a slot of the Program: a forward jump checks it, a backward jump lowers it (R132). -/
theorem Effect.ip_lt {s u : State} {i : Instr} (h : Effect s i u) (hip : s.ip < s.progLen) : u.ip < s.progLen := by
  cases h with
  | skip imm hd hz hl => exact hl
  | back imm hd hz hl => exact (Nat.sub_le ..).trans_lt hip
  | input imm r ch hd hr => simpa using hip
  | _ => exact hip

/-- A store to a cell that exists keeps the tape canonical and on its cells (R24, R41). -/
theorem State.TapeWf.setCell {s : State} (hs : s.TapeWf) (hd : s.dp < s.config.tapeSize) (v : Byte) :
    (s.setCell v).TapeWf := by
  obtain ⟨hwf, hin⟩ := hs
  exact ⟨Memory.write_wf hwf _ v, Memory.write_within v hd hin⟩

theorem Effect.tapeWf {s u : State} {i : Instr} (h : Effect s i u) (hs : s.TapeWf) : u.TapeWf := by
  cases h with
  | incWord imm hd => exact hs.setCell hd _
  | decWord imm hd => exact hs.setCell hd _
  | input imm r ch hd hr =>
    have ha : (s.answered ch).TapeWf := hs
    rcases (s.answered ch).receive_eq r with hu | ⟨v, hu⟩
    · rwa [hu]
    · rw [hu]
      exact ha.setCell hd v
  | _ => exact hs

/-- The guard has found `step_count` below the ceiling and `ip` in the Program, so the advance keeps both in their ranges
(R91, R94). -/
theorem Effect.registersWf_advance {s u : State} {i : Instr} (h : Effect s i u) (hs : s.RegistersWf)
    (hg : s.guard = true) : u.advance.RegistersWf := by
  obtain ⟨-, hdp, -⟩ := hs
  obtain ⟨hip, hceil, -⟩ := (State.guard_iff s).1 hg
  obtain ⟨hprog, hconf⟩ := h.sameStore
  refine ⟨?_, ?_, fun n hn => ?_⟩
  · have hlen : u.progLen = s.progLen := congrArg List.length hprog
    rw [State.advance_ip, State.advance_progLen, hlen]
    exact h.ip_lt hip
  · rw [State.advance_dp, State.advance_config, hconf]
    exact h.dp_lt hdp
  · rw [State.advance_config, hconf] at hn
    rw [State.advance_stepCount, h.stepCount_eq]
    exact (State.belowCeiling_iff s).1 hceil n hn

/-! ### Every step keeps the invariant -/

/-- A step that answers a next state halts, executes the current instruction to its end, or holds at an Input on the
tape (R18, R90). -/
theorem step_next_cases {s t : State} (h : step s = .next t) :
    t = s ∨ (∃ i u, s.current = some i ∧ Effect s i u ∧ t = u.advance) ∨
      (∃ imm, s.current = some (.input imm) ∧ s.dp < s.config.tapeSize ∧ t = { s with inputRequest := true }) := by
  obtain ⟨-, ⟨-, ht⟩ | ⟨i, hi, he⟩⟩ := (step_eq_next s t).1 h
  · exact .inl ht
  · rcases (exec_eq_next i s t).1 he with ⟨u, hu, ht⟩ | ⟨⟨⟨imm, rfl⟩, hd, -⟩, ht⟩
    · exact .inr (.inl ⟨i, u, hi, hu, ht⟩)
    · exact .inr (.inr ⟨imm, hi, hd, ht⟩)

theorem Effect.wf_advance {s u : State} {i : Instr} (h : Effect s i u) (hi : s.current = some i) (hs : s.Wf) :
    u.advance.Wf := by
  obtain ⟨hreg, htape, hfit, hreq⟩ := hs
  obtain ⟨hprog, hconf⟩ := h.sameStore
  refine ⟨h.registersWf_advance hreg (State.of_current hi).2, h.tapeWf htape, ?_, fun hr => ?_⟩
  · rwa [State.advance_config, State.advance_program, hconf, hprog]
  · rw [State.advance_inputRequest, h.inputRequest_false hreq hi] at hr
    cases hr

/-- A hold raises its request at an Input with its cell on the tape, where `ip` stays (R31, R121). -/
theorem State.Wf.hold {s : State} (hs : s.Wf) {imm : Nat} (hi : s.current = some (.input imm))
    (hd : s.dp < s.config.tapeSize) : State.Wf { s with inputRequest := true } := by
  obtain ⟨hreg, htape, hfit, -⟩ := hs
  exact ⟨hreg, htape, hfit, fun _ => ⟨hd, imm, hi⟩⟩

/-- Settles O19, by the three ways a step answers a next state. -/
theorem everyStepKeepsTheInvariant : Obligations.EveryStepKeepsTheInvariant := by
  unfold Obligations.EveryStepKeepsTheInvariant
  intro s t hs h
  rcases step_next_cases h with rfl | ⟨i, u, hi, hu, rfl⟩ | ⟨imm, hi, hd, rfl⟩
  · exact hs
  · exact hu.wf_advance hi hs
  · exact hs.hold hi hd

/-! ### The frame of a pointer move -/

/-- Settles O29: by opcode, an Input that holds being no pointer move. -/
theorem pointerMoveFrame : Obligations.PointerMoveFrame := by
  unfold Obligations.PointerMoveFrame
  intro i s t h
  rcases (exec_eq_next i s t).1 h with ⟨u, hu, rfl⟩ | ⟨⟨⟨imm, rfl⟩, -, -⟩, rfl⟩
  · refine ⟨fun hi => ?_, fun h2 h3 => hu.dp_eq h2 h3⟩
    obtain ⟨d, rfl⟩ := hu.eq_of_pointerMove hi
    exact ⟨fun _ => rfl, ⟨rfl, rfl⟩, ⟨rfl, rfl, rfl⟩, rfl, rfl⟩
  · exact ⟨fun hi => by simp [Instr.opc] at hi, fun _ _ => rfl⟩

/-! ### The step counter -/

/-- A step counts one instruction or, on a halt or a hold, none (R23, R96, R121). -/
theorem step_stepCount {s t : State} (h : step s = .next t) :
    t.stepCount = s.stepCount ∨ t.stepCount = s.stepCount + 1 := by
  rcases step_next_cases h with rfl | ⟨i, u, -, hu, rfl⟩ | ⟨imm, -, -, rfl⟩
  · exact .inl rfl
  · exact .inr (by rw [State.advance_stepCount, hu.stepCount_eq])
  · exact .inl rfl

/-- Settles O44, by induction on the number of steps. -/
theorem stepCountIsMonotonic : Obligations.StepCountIsMonotonic := by
  unfold Obligations.StepCountIsMonotonic
  intro n
  induction n with
  | zero =>
    intro s t h
    obtain rfl := (runs_zero s t).1 h
    exact ⟨le_rfl, le_rfl⟩
  | succ n ih =>
    intro s t h
    obtain ⟨u, hu, h⟩ := (runs_succ n s t).1 h
    have hstep := step_stepCount hu
    have hrest := ih u t h
    omega

/-! ### The reset state -/

/-- Settles O6: a reset's next state and its refusals are those of `resetRun_eq_next` and `resetRun_eq_refused`. -/
theorem resetClearsTheTapeAndTheRegisters : Obligations.ResetClearsTheTapeAndTheRegisters := by
  unfold Obligations.ResetClearsTheTapeAndTheRegisters
  intro s
  refine ⟨fun hl => ?_, fun hc => ?_, fun hc hw => ?_⟩
  · exact ⟨_, (s.resetRun_eq_next _).2 ⟨hl, rfl⟩, fun _ => rfl, rfl, rfl, rfl, rfl, rfl, rfl,
      resetState_loaded .., ⟨rfl, rfl⟩, rfl⟩
  · exact (s.resetRun_eq_refused _).2 (.inl ⟨hc, rfl⟩)
  · exact (s.resetRun_eq_refused _).2 (.inr ⟨hc, hw, rfl⟩)

/-- The invariant at the start of a run, in any configuration whose words fit. -/
theorem State.ResetState.wf {s : State} (hs : s.ResetState) (hfit : wordsFit s.config s.program = true) : s.Wf := by
  obtain ⟨htape, hip, hdp, hcount, hreq, -, -⟩ := hs
  refine ⟨⟨by simp [hip], by simp [hdp], by simp [hcount]⟩, ?_, hfit, by simp [State.RequestWf, hreq]⟩
  rw [State.TapeWf, htape]
  exact ⟨rfl, rfl⟩

/-- At the start of a run the pointer is on the tape, if the tape has a cell. -/
theorem State.ResetState.faultWf {s : State} (hs : s.ResetState) (hsize : 1 ≤ s.config.tapeSize) : s.FaultWf := by
  obtain ⟨-, -, hdp, -⟩ := hs
  intro _ hoff
  omega

/-- Settles O7: `State.reset` is a reset state with an empty store, so every word of it fits. -/
theorem resetMeetsTheInvariants : Obligations.ResetMeetsTheInvariants := by
  unfold Obligations.ResetMeetsTheInvariants
  have hreset : State.reset.ResetState := resetState_loaded ..
  have hsize : 1 ≤ State.reset.config.tapeSize := by simp [State.reset, Config.default]
  exact ⟨hreset.wf rfl, hreset.faultWf hsize⟩

end Sys2Proof.Machine

end

/-! Proofs of the memory statements (20_memory.md): the byte image of a Program (R43), tape accesses (R41, R45), the
constant program store (R50), the order of the channels (R48) and the unchecked access (R52). -/

section

namespace Sys2Proof

/-! ### The byte image of a Program -/

/-- The two bytes of a word of 16 bits are its value in base 256 (D20). -/
theorem toNat_highByte_mul_add_toNat_lowByte {w : Nat} (h : w < 2 ^ 16) :
    (BitVec.ofNat 8 (w / 256)).toNat * 256 + (BitVec.ofNat 8 w).toNat = w := by
  rw [BitVec.toNat_ofNat, BitVec.toNat_ofNat]
  omega

/-- A word in front of a byte image reads back in front of the words of that image. -/
theorem programOfBytes_wordBytes_append {w : Nat} (h : w < 2 ^ 16) {bytes : List Byte} {words : List Nat}
    (hbytes : programOfBytes bytes = .ok words) : programOfBytes (wordBytes w ++ bytes) = .ok (w :: words) := by
  rw [wordBytes, List.cons_append, List.cons_append, List.nil_append, programOfBytes, hbytes,
    toNat_highByte_mul_add_toNat_lowByte h]
  rfl

theorem programBytes_cons (w : Nat) (words : List Nat) :
    programBytes (w :: words) = wordBytes w ++ programBytes words := List.flatMap_cons

theorem programOfBytes_programBytes {words : List Nat} (h : ∀ w ∈ words, w < 2 ^ 16) :
    programOfBytes (programBytes words) = .ok words := by
  induction words with
  | nil => rfl
  | cons w words ih =>
    obtain ⟨hw, hwords⟩ := List.forall_mem_cons.1 h
    rw [programBytes_cons]
    exact programOfBytes_wordBytes_append hw (ih hwords)

/-- Two bytes a word, whatever the words. -/
theorem length_programBytes (words : List Nat) : (programBytes words).length = 2 * words.length := by
  induction words with
  | nil => rfl
  | cons w words ih =>
    have hw : (wordBytes w).length = 2 := rfl
    rw [programBytes_cons, List.length_append, List.length_cons, hw, ih]
    omega

/-- Settles O4, by induction on the words. -/
theorem byteImageReadsBack : Obligations.ByteImageReadsBack := by
  unfold Obligations.ByteImageReadsBack
  exact fun words h => ⟨programOfBytes_programBytes h, length_programBytes words⟩

/-- The instructions that leave the tape alone are the two pointer moves (R45). -/
theorem Instr.accessesTape_eq_false_iff (i : Instr) : i.accessesTape = false ↔ i.opc = 2 ∨ i.opc = 3 := by
  cases i <;> simp [Instr.accessesTape, Instr.opc]

end Sys2Proof

namespace Sys2Proof.Machine

/-! ### Tape accesses -/

theorem State.setCell_sameOtherCells (s : State) (v : Byte) : SameOtherCells s (s.setCell v) :=
  fun _ ha => Memory.read_write_of_ne s.dp v ha

/-- Every store goes to the cell at the `dp` from before the instruction (R41). -/
theorem Effect.sameOtherCells {s u : State} {i : Instr} (h : Effect s i u) : SameOtherCells s u := by
  cases h with
  | incWord imm hd => exact s.setCell_sameOtherCells _
  | decWord imm hd => exact s.setCell_sameOtherCells _
  | input imm r ch hd hr =>
    rcases (s.answered ch).receive_eq r with hu | ⟨v, hu⟩
    · rw [hu]
      exact fun _ _ => rfl
    · rw [hu]
      exact (s.answered ch).setCell_sameOtherCells v
  | _ => exact fun _ _ => rfl

/-- An instruction that accesses the tape and answers a next state had its cell on the tape, and is no pointer move
(R41, R52). -/
theorem exec_next_accessesTape {s t : State} {i : Instr} (h : exec i s = .next t) (hi : i.accessesTape = true) :
    s.dp < s.config.tapeSize ∧ t.dp = s.dp := by
  have hon : s.dp < s.config.tapeSize := by
    by_contra hoff
    have hfault := (exec_eq_fault i s _).2 ⟨hi, Nat.le_of_not_lt hoff, rfl⟩
    exact nomatch h.symm.trans hfault
  obtain ⟨h2, h3⟩ := not_or.1 (mt i.accessesTape_eq_false_iff.2 (by simp [hi]))
  exact ⟨hon, (pointerMoveFrame i s t h).2 h2 h3⟩

theorem exec_next_sameOtherCells {s t : State} {i : Instr} (h : exec i s = .next t) : SameOtherCells s t := by
  rcases (exec_eq_next i s t).1 h with ⟨u, hu, rfl⟩ | ⟨-, rfl⟩
  · exact hu.sameOtherCells
  · exact fun _ _ => rfl

/-- Settles O9: the write laws of the tape, and the frame of an instruction; one that does not access the tape is a
pointer move. -/
theorem tapeAccessIsOneCellAtTheDataPointer : Obligations.TapeAccessIsOneCellAtTheDataPointer := by
  unfold Obligations.TapeAccessIsOneCellAtTheDataPointer
  refine ⟨fun m a v b hm => ?_, fun i s t h => ?_⟩
  · exact ⟨Memory.write_wf hm a v, by rw [Memory.read_write hm, if_pos rfl], Memory.read_write_of_ne a v⟩
  · refine ⟨exec_next_sameOtherCells h, exec_next_accessesTape h, fun hi => ?_⟩
    obtain ⟨htape, -⟩ := (pointerMoveFrame i s t h).1 (i.accessesTape_eq_false_iff.1 hi)
    exact htape

/-! ### The program store -/

theorem step_sameStore {s t : State} (h : step s = .next t) : SameStore s t := by
  rcases step_next_cases h with rfl | ⟨i, u, -, hu, rfl⟩ | ⟨imm, -, -, rfl⟩
  · exact ⟨rfl, rfl⟩
  · exact hu.sameStore
  · exact ⟨rfl, rfl⟩

theorem step_sameOtherCells {s t : State} (h : step s = .next t) : SameOtherCells s t := by
  obtain ⟨-, ⟨-, rfl⟩ | ⟨i, -, he⟩⟩ := (step_eq_next s t).1 h
  · exact fun _ _ => rfl
  · exact exec_next_sameOtherCells he

/-- The program store and the configuration of a run are those of its start (R25, R28, R50). -/
theorem runs_sameStore {n : Nat} {s t : State} (h : Runs n s t) : SameStore s t := by
  refine runs_invariant (P := SameStore s) (fun u v hsu hstep => ?_) ⟨rfl, rfl⟩ h
  obtain ⟨hprog, hconf⟩ := hsu
  obtain ⟨hprog', hconf'⟩ := step_sameStore hstep
  exact ⟨hprog'.trans hprog, hconf'.trans hconf⟩

/-- Settles O10: no step stores to the program store or the configuration, and its store to the tape goes to `dp`. -/
theorem programStoreIsConstantDuringARun : Obligations.ProgramStoreIsConstantDuringARun := by
  unfold Obligations.ProgramStoreIsConstantDuringARun
  refine ⟨fun n s t h => ?_, fun s t h => step_sameOtherCells h⟩
  obtain ⟨hprog, hconf⟩ := runs_sameStore h
  exact ⟨hconf, fun i => by rw [hprog]⟩

/-! ### The channels -/

/-- From `s` to `t` at most `n` values were emitted, behind those before, and at most `n` pending values were consumed,
oldest first (R30, R48). -/
def UsesChannels (n : Nat) (s t : State) : Prop :=
  (∃ emitted, t.output = s.output ++ emitted ∧ emitted.length ≤ n) ∧
    (∃ consumed, s.input.pending = consumed ++ t.input.pending ∧ consumed.length ≤ n)

theorem UsesChannels.of_eq {s t : State} (hin : t.input = s.input) (hout : t.output = s.output) (n : Nat) :
    UsesChannels n s t :=
  ⟨⟨[], by simp [hout], Nat.zero_le n⟩, ⟨[], by simp [hin], Nat.zero_le n⟩⟩

theorem UsesChannels.trans {m n : Nat} {s u t : State} (hsu : UsesChannels m s u) (hut : UsesChannels n u t) :
    UsesChannels (m + n) s t := by
  obtain ⟨⟨e, he, hem⟩, ⟨c, hc, hcm⟩⟩ := hsu
  obtain ⟨⟨e', he', hen⟩, ⟨c', hc', hcn⟩⟩ := hut
  refine ⟨⟨e ++ e', ?_, ?_⟩, ⟨c ++ c', ?_, ?_⟩⟩
  · rw [he', he, List.append_assoc]
  · rw [List.length_append]
    exact Nat.add_le_add hem hen
  · rw [hc, hc', List.append_assoc]
  · rw [List.length_append]
    exact Nat.add_le_add hcm hcn

/-- A request takes the oldest pending value or none (R120, R122). -/
theorem InputChannel.pending_of_request {ch ch' : InputChannel} {r : InputAnswer} (h : ch.request = some (r, ch')) :
    ∃ consumed, ch.pending = consumed ++ ch'.pending ∧ consumed.length ≤ 1 := by
  cases r with
  | value v =>
    obtain ⟨rest, hp, rfl⟩ := (InputChannel.request_eq_value ..).1 h
    exact ⟨[v], hp, le_rfl⟩
  | exhausted =>
    obtain ⟨-, -, rfl⟩ := (InputChannel.request_eq_exhausted ..).1 h
    exact ⟨[], rfl, Nat.zero_le 1⟩

/-- An Input consumes at most one value, an Output emits one, and no other instruction uses a channel. -/
theorem Effect.usesChannels {s u : State} {i : Instr} (h : Effect s i u) : UsesChannels 1 s u := by
  cases h with
  | input imm r ch hd hr =>
    refine ⟨⟨[], by simp, Nat.zero_le 1⟩, ?_⟩
    rw [State.receive_input, State.answered_input]
    exact InputChannel.pending_of_request hr
  | output imm hd => exact ⟨⟨[s.cell], rfl, le_rfl⟩, ⟨[], rfl, Nat.zero_le 1⟩⟩
  | _ => exact .of_eq rfl rfl 1

theorem step_usesChannels {s t : State} (h : step s = .next t) : UsesChannels 1 s t := by
  rcases step_next_cases h with rfl | ⟨i, u, -, hu, rfl⟩ | ⟨imm, -, -, rfl⟩
  · exact .of_eq rfl rfl 1
  · exact hu.usesChannels
  · exact .of_eq rfl rfl 1

/-- The values of the first step stand before those of the steps after it. -/
theorem runs_usesChannels {n : Nat} {s t : State} (h : Runs n s t) : UsesChannels n s t := by
  induction n generalizing s with
  | zero =>
    obtain rfl := (runs_zero s t).1 h
    exact .of_eq rfl rfl 0
  | succ n ih =>
    obtain ⟨u, hu, h⟩ := (runs_succ n s t).1 h
    rw [Nat.add_comm]
    exact (step_usesChannels hu).trans (ih h)

/-- Settles O36: `UsesChannels` of the whole run, by induction on the number of steps. -/
theorem channelsAreUsedInOrder : Obligations.ChannelsAreUsedInOrder := by
  unfold Obligations.ChannelsAreUsedInOrder
  exact fun n s t h => runs_usesChannels h

/-! ### The unchecked access -/

/-- The guard has found the pointer on the tape where bounds checking is on (R91), so a current instruction with its
pointer off the tape means that it is off (R52). -/
theorem State.boundsCheck_of_current {s : State} {i : Instr} (hi : s.current = some i)
    (hoff : s.config.tapeSize ≤ s.dp) : s.config.boundsCheck = false := by
  obtain ⟨-, -, hbounds⟩ := (State.guard_iff s).1 (State.of_current hi).2
  rw [← Bool.not_eq_true]
  exact fun hcheck => absurd ((State.boundsHold_iff s).1 hbounds hcheck) (Nat.not_lt.2 hoff)

/-- Settles O41: a step faults where its instruction does, and the guard lets that happen only without bounds
checking. -/
theorem stepFaultsExactlyOnAnUncheckedAccess : Obligations.StepFaultsExactlyOnAnUncheckedAccess := by
  unfold Obligations.StepFaultsExactlyOnAnUncheckedAccess
  intro s f
  simp only [step_eq_fault, exec_eq_fault]
  constructor
  · rintro ⟨hl, i, hi, ha, hoff, rfl⟩
    exact ⟨hl, State.boundsCheck_of_current hi hoff, hoff, ⟨i, hi, ha⟩, rfl⟩
  · rintro ⟨hl, -, hoff, ⟨i, hi, ha⟩, rfl⟩
    exact ⟨hl, i, hi, ha, hoff, rfl⟩

end Sys2Proof.Machine

end

/-! Proofs of the encoding statements (30_encoding.md): the decoder and the encoder (R60 to R66), pass 1 and pass 2 of the
Translator (R73 to R81), what a translated Program is (R83), the two readings of a well-formed Program, and that it never
gets stuck (R70). -/

section

namespace Sys2Proof

/-! ### The decoder and the encoder -/

theorem two_pow_wordBitsOf (immBits : Nat) : 2 ^ wordBitsOf immBits = 8 * 2 ^ immBits := by
  rw [wordBitsOf, Nat.pow_add]
  rfl

/-- The decoder reads the two fields that the encoder wrote, if the immediate is not cut off (R63, R64). -/
theorem decode_encode {immBits : Nat} {i : Instr} (h : i.wf immBits = true) : decode immBits (encode i) = i := by
  rw [decode, opcField_encode, immField_encode, Nat.mod_eq_of_lt ((Instr.wf_iff ..).1 h), instrOf_opc_imm]

theorem encode_lt {immBits : Nat} {i : Instr} (h : i.wf immBits = true) : encode i < 2 ^ wordBitsOf immBits := by
  have himm := (Instr.wf_iff ..).1 h
  have hopc := i.opc_lt
  rw [encode_eq, two_pow_wordBitsOf]
  omega

/-- Settles O1: the two fields of the encoded word are those of the instruction. -/
theorem decodeOfEncodeReturnsTheInstruction : Obligations.DecodeOfEncodeReturnsTheInstruction := by
  unfold Obligations.DecodeOfEncodeReturnsTheInstruction
  exact fun immBits i h => ⟨decode_encode h, encode_lt h⟩

theorem decode_wf (immBits w : Nat) : (decode immBits w).wf immBits = true :=
  (Instr.wf_iff ..).2 (decode_imm_lt immBits w)

/-- A word of WORD_BITS bits is its two fields and nothing else, so the immediate field cuts nothing off (R61). -/
theorem encode_decode {immBits w : Nat} (h : w < 2 ^ wordBitsOf immBits) : encode (decode immBits w) = w := by
  rw [two_pow_wordBitsOf] at h
  have himm : immField immBits w = w / 8 := Nat.mod_eq_of_lt (Nat.div_lt_of_lt_mul h)
  rw [encode_eq, decode_imm, decode_opc, himm, opcField_eq]
  omega

/-- Settles O2: the decoder splits a word into its two fields and the encoder joins them again. -/
theorem encodeOfDecodeReturnsTheWord : Obligations.EncodeOfDecodeReturnsTheWord := by
  unfold Obligations.EncodeOfDecodeReturnsTheWord
  exact fun immBits w h => ⟨decode_wf immBits w, encode_decode h⟩

/-- Settles O3, by decoding the eight words. -/
theorem decoderReadsTheWordsOfTheSpec : Obligations.DecoderReadsTheWordsOfTheSpec := by
  unfold Obligations.DecoderReadsTheWordsOfTheSpec
  decide

/-! ### Brackets and pointer moves -/

theorem Instr.bracket_of_isPointerMove {i : Instr} (h : i.isPointerMove = true) : i.bracket = .plain := by
  cases i with
  | addPtr n => rfl
  | subPtr n => rfl
  | _ => cases h

/-- A bracket uses its immediate, so any is canonical (R62, R66). -/
theorem Instr.canonical_of_bracket {i : Instr} (h : i.bracket ≠ .plain) : i.canonical = true := by
  cases i with
  | condLeft d => rfl
  | condRight d => rfl
  | _ => exact absurd rfl h

end Sys2Proof

namespace Sys2Proof.Machine

/-- Settles O5: the meanings of the four opcodes do not mention their immediate. -/
theorem fourOpcodesIgnoreTheImmediate : Obligations.FourOpcodesIgnoreTheImmediate := by
  unfold Obligations.FourOpcodesIgnoreTheImmediate
  exact fun m n s => ⟨rfl, rfl, rfl, rfl⟩

/-! ### Well-formed Programs do not get stuck -/

/-- In a well-formed Program every taken bracket lands on a slot, so no instruction is refused (R70, R132). -/
theorem State.WellFormed.exec_ne_refused {s : State} (hs : s.WellFormed) {i : Instr} (hi : s.current = some i)
    (r : Refusal) : exec i s ≠ .refused r := by
  obtain ⟨-, hcode⟩ := hs
  obtain ⟨-, hget⟩ := codeOf_of_current hi
  intro h
  obtain ⟨-, -, ⟨d, rfl, -, hland⟩ | ⟨d, rfl, -, hland⟩⟩ := (exec_eq_refused ..).1 h
  · obtain ⟨-, hlt, -⟩ := wellFormedProgram_left hcode hget
    rw [codeOf_length] at hlt
    exact Nat.not_lt.2 hland hlt
  · obtain ⟨-, hle, -⟩ := wellFormedProgram_right hcode hget
    exact Nat.not_lt.2 hle hland

theorem State.Launched.step_ne_refused {s : State} (hs : s.Launched) (r : Refusal) : step s ≠ .refused r := by
  obtain ⟨hlegal, hwf⟩ := hs
  intro h
  rcases (step_eq_refused ..).1 h with ⟨hm, -⟩ | ⟨-, i, hi, he⟩
  · exact hm (.inr hlegal)
  · exact hwf.exec_ne_refused hi r he

/-- With bounds checking on there is no unchecked access (R52). -/
theorem step_ne_fault_of_boundsCheck {s : State} (hs : s.config.boundsCheck = true) (f : Fault) :
    step s ≠ .fault f := by
  intro h
  obtain ⟨-, hoff, -⟩ := (stepFaultsExactlyOnAnUncheckedAccess s f).1 h
  simp [hs] at hoff

theorem State.Launched.exists_step {s : State} (hs : s.Launched) (hb : s.config.boundsCheck = true) :
    ∃ t, step s = .next t := by
  cases h : step s with
  | next t => exact ⟨t, rfl⟩
  | fault f => exact absurd h (step_ne_fault_of_boundsCheck hb f)
  | refused r => exact absurd h (hs.step_ne_refused r)

theorem State.Launched.of_sameStore {s t : State} (hs : s.Launched) (h : SameStore s t) : t.Launched := by
  obtain ⟨hprog, hconf⟩ := h
  rwa [State.Launched, State.WellFormed, State.progLen, hprog, hconf]

/-- Settles O42: a launched state has a next state, and a step keeps the program store and the configuration. -/
theorem launchedProgramsNeverGetStuck : Obligations.LaunchedProgramsNeverGetStuck := by
  unfold Obligations.LaunchedProgramsNeverGetStuck
  intro s n
  induction n generalizing s with
  | zero => exact fun hs hb => ⟨s, (runs_zero s s).2 rfl, hs, hb⟩
  | succ n ih =>
    intro hs hb
    obtain ⟨u, hu⟩ := hs.exists_step hb
    have hstore := step_sameStore hu
    obtain ⟨t, hrun, ht⟩ := ih u (hs.of_sameStore hstore) (hstore.2 ▸ hb)
    exact ⟨t, (runs_succ n s t).2 ⟨u, hu, hrun⟩, ht⟩

/-! ### Pass 1: runs fold, nothing else does -/

/-- Settles O47: the look-ahead takes the run and stops at what ends it, and the main scan passes over the bytes taken. -/
theorem pointerMoveRunFoldsIntoOneInstruction : Obligations.PointerMoveRunFoldsIntoOneInstruction := by
  unfold Obligations.PointerMoveRunFoldsIntoOneInstruction
  refine ⟨fun n => rfl, fun n => rfl, ?_⟩
  intro immCap pos s first run rest count hs hfirst hrun hrest hcount
  have hla := lookAhead_run s run rest hrun (lookAhead_stop s rest hrest)
  have hcount' : count = run.countP (fun b => symbolOf b == some s) + 1 := by simp [hcount, hfirst]
  rw [pass1_fold immCap pos hfirst hs, hla, ← hcount', pass1_skip]
  exact ⟨fun hcap => if_neg (Nat.not_lt.2 hcap), fun hcap => if_pos hcap⟩

theorem Symbol.folds_iff (s : Symbol) : s.folds = true ↔ s = .right ∨ s = .left := by
  cases s <;> simp [Symbol.folds]

/-- Without pointer-move symbols pass 1 takes the dialect symbols one by one (R73, R76). -/
theorem pass1_of_no_folds (immCap pos : Nat) {src : List Byte}
    (h : ∀ b ∈ src, ∀ s, symbolOf b = some s → s.folds = false) :
    pass1 immCap pos 0 src = .ok ((src.filterMap symbolOf).map fun s => s.instr 0) := by
  induction src generalizing pos with
  | nil => rfl
  | cons b rest ih =>
    obtain ⟨hb, hrest⟩ := List.forall_mem_cons.1 h
    cases hsym : symbolOf b with
    | none => rw [pass1_none immCap pos hsym, ih _ hrest, List.filterMap_cons_none hsym]
    | some s =>
      rw [pass1_single immCap pos hsym (hb s hsym), ih _ hrest, List.filterMap_cons_some hsym]
      rfl

/-- Settles O48: one equation of pass 1 for each kind of byte, and by induction on a source without pointer moves. -/
theorem otherSymbolsNeverFold : Obligations.OtherSymbolsNeverFold := by
  unfold Obligations.OtherSymbolsNeverFold
  refine ⟨fun immCap pos b rest => ?_, Symbol.folds_iff, fun immCap pos src h => pass1_of_no_folds immCap pos h⟩
  exact ⟨fun hb => pass1_none immCap pos hb rest, fun s hb hs => pass1_single immCap pos hb hs rest⟩

/-! ### Pass 2: what it reports -/

theorem lt_length_of_kindAt {code : List Instr} {k : Nat} {kind : BracketKind} (h : kindAt code k kind = true) :
    k < code.length := by
  obtain ⟨x, hx, -⟩ := (kindAt_iff ..).1 h
  exact (List.getElem?_eq_some_iff.1 hx).1

/-- An error of any round is the error of pass 2. -/
theorem pass2_of_resolveBelow_error {immCap : Nat} {code : List Instr} {m : Nat} {e : TranslationError}
    (hm : m ≤ code.length) (h : resolveBelow immCap code m = .error e) : pass2 immCap code = .error e := by
  rw [pass2_eq, resolveBelow_error hm h]

/-- The loop reaches the CondLeft at `i` if those before it resolve; if that one fails, with its error pass 2 ends. -/
theorem pass2_first_failing {immCap i : Nat} {code : List Instr} (hi : kindAt code i .opens = true)
    (h : ∀ k < i, kindAt code k .opens = true → Resolves immCap code k) :
    (matchOf code i = none → pass2 immCap code = .error (.unbalancedBracket i)) ∧
    (∀ j, matchOf code i = some j → immCap < j - i → pass2 immCap code = .error (.jumpRangeOverflow i)) := by
  obtain ⟨r, hr⟩ := resolveBelow_goes_on h
  have hround : ∀ e, resolveAt immCap r i = .error e → pass2 immCap code = .error e := fun e he =>
    pass2_of_resolveBelow_error (lt_length_of_kindAt hi) (by rw [resolveBelow_succ, hr]; exact he)
  rcases resolveAt_cases (resolveBelow_ok hr) with
    ⟨hn, -⟩ | ⟨-, hm, he⟩ | ⟨-, j, hj, hc, he⟩ | ⟨-, j, hj, hc, -⟩
  · simp [hi] at hn
  · exact ⟨fun _ => hround _ he, fun j hj => by simp [hm] at hj⟩
  · exact ⟨fun hn => by simp [hj] at hn, fun _ _ _ => hround _ he⟩
  · refine ⟨fun hn => by simp [hj] at hn, fun j' hj' hc' => ?_⟩
    obtain rfl : j = j' := Option.some.inj (hj.symm.trans hj')
    exact absurd hc (Nat.not_le.2 hc')

/-- Settles O49, by `pass2_first_failing`. -/
theorem firstFailingCondLeftIsReported : Obligations.FirstFailingCondLeftIsReported := by
  unfold Obligations.FirstFailingCondLeftIsReported
  exact fun immCap i code hi h => pass2_first_failing hi h

/-- Some CondLeft has this index as its match. -/
def IsMatched (code : List Instr) (j : Nat) : Prop := ∃ i, kindAt code i .opens = true ∧ matchOf code i = some j

theorem ResolvedBelow.length_eq {immCap m : Nat} {code : List Instr} {r : Resolution}
    (hr : ResolvedBelow immCap code m r) : r.code.length = code.length := by
  simpa using congrArg List.length hr.kinds

/-- After the loop the matched indices are the matches of all CondLefts. -/
theorem ResolvedBelow.mem_matched_iff {immCap : Nat} {code : List Instr} {r : Resolution}
    (hr : ResolvedBelow immCap code code.length r) (j : Nat) : j ∈ r.matched ↔ IsMatched code j := by
  constructor
  · exact hr.matched j
  · rintro ⟨i, hi, hj⟩
    obtain ⟨j', hj', -, -, -, hmem⟩ := hr.pairs i (lt_length_of_kindAt hi) hi
    rwa [Option.some.inj (hj.symm.trans hj')]

/-- The test of the search for a stray CondRight, in terms of the code that pass 2 started from. -/
theorem ResolvedBelow.stray_test_iff {immCap : Nat} {code : List Instr} {r : Resolution}
    (hr : ResolvedBelow immCap code code.length r) (j : Nat) :
    (kindAt r.code j .closes && !r.matched.contains j) = true ↔ kindAt code j .closes = true ∧ ¬ IsMatched code j := by
  rw [kindAt_congr hr.kinds, ← hr.mem_matched_iff]
  simp

/-- The search finds the first CondRight that is matched by no CondLeft (R80). -/
theorem ResolvedBelow.strayRight_eq_some_iff {immCap : Nat} {code : List Instr} {r : Resolution}
    (hr : ResolvedBelow immCap code code.length r) (j : Nat) :
    strayRight r = some j ↔ (kindAt code j .closes = true ∧ ¬ IsMatched code j) ∧
      ∀ m < j, kindAt code m .closes = true → IsMatched code m := by
  rw [strayRight, List.find?_range_eq_some, hr.stray_test_iff, List.mem_range, hr.length_eq]
  have htest : ∀ m, (!(kindAt r.code m .closes && !r.matched.contains m)) = true ↔
      (kindAt code m .closes = true → IsMatched code m) := fun m => by
    rw [Bool.not_eq_true', ← Bool.not_eq_true, hr.stray_test_iff, not_and, not_not]
  simp only [htest]
  exact ⟨fun ⟨hj, _, hm⟩ => ⟨hj, hm⟩, fun ⟨hj, hm⟩ => ⟨hj, lt_length_of_kindAt hj.1, hm⟩⟩

/-- Settles O50: the loop comes to its end, and the search after it finds the CondRight at `j`. -/
theorem strayCondRightIsReported : Obligations.StrayCondRightIsReported := by
  unfold Obligations.StrayCondRightIsReported
  intro immCap j code hleft hj hstray hbefore
  obtain ⟨r, hr⟩ := resolveBelow_goes_on (m := code.length) fun k _ => hleft k
  have hfound : strayRight r = some j :=
    ((resolveBelow_ok hr).strayRight_eq_some_iff j).2 ⟨⟨hj, fun ⟨k, hk, hm⟩ => hstray k hk hm⟩, hbefore⟩
  rw [pass2_eq, hr]
  simp only [hfound]

/-- Pass 2 succeeds if every CondLeft has a match within reach and every CondRight is one (R77 to R80). -/
theorem pass2_succeeds {immCap : Nat} {code : List Instr}
    (hleft : ∀ k, kindAt code k .opens = true → Resolves immCap code k)
    (hright : ∀ j, kindAt code j .closes = true → IsMatched code j) : ∃ resolved, pass2 immCap code = .ok resolved := by
  obtain ⟨r, hr⟩ := resolveBelow_goes_on (m := code.length) fun k _ => hleft k
  have hnone : strayRight r = none := by
    refine Option.eq_none_iff_forall_ne_some.2 fun j hj => ?_
    obtain ⟨⟨hc, hm⟩, -⟩ := ((resolveBelow_ok hr).strayRight_eq_some_iff j).1 hj
    exact hm (hright j hc)
  refine ⟨r.code, ?_⟩
  rw [pass2_eq, hr]
  simp only [hnone]

/-! ### Pass 2: what it writes -/

/-- Settles O51: what the loop has written at its end, and that no CondRight is left over. -/
theorem bracketDistancesAreSymmetric : Obligations.BracketDistancesAreSymmetric := by
  unfold Obligations.BracketDistancesAreSymmetric
  intro immCap code resolved h
  obtain ⟨r, rfl, hr, hright⟩ := pass2_ok h
  refine ⟨hr.length_eq, hr.plain, fun i hi => ?_, hright⟩
  obtain ⟨j, hj, hcap, hl, hc, -⟩ := hr.pairs i (lt_length_of_kindAt hi) hi
  exact ⟨j, hj, hcap, hl, hc⟩

theorem pass2_kinds {immCap : Nat} {code resolved : List Instr} (h : pass2 immCap code = .ok resolved) :
    resolved.map Instr.bracket = code.map Instr.bracket := by
  obtain ⟨r, rfl, hr, -⟩ := pass2_ok h
  exact hr.kinds

theorem pass2_kindAt {immCap : Nat} {code resolved : List Instr} (h : pass2 immCap code = .ok resolved) {k : Nat}
    {x : Instr} (hx : resolved[k]? = some x) : kindAt code k x.bracket = true := by
  rw [← kindAt_congr (pass2_kinds h)]
  exact (kindAt_iff ..).2 ⟨x, hx, rfl⟩

/-- An instruction of the resolved code that is no bracket stood there before pass 2. -/
theorem pass2_getElem?_plain {immCap : Nat} {code resolved : List Instr} (h : pass2 immCap code = .ok resolved)
    {k : Nat} {x : Instr} (hx : resolved[k]? = some x) (hp : x.bracket = .plain) : code[k]? = some x := by
  obtain ⟨-, hplain, -⟩ := bracketDistancesAreSymmetric immCap code resolved h
  rw [← hplain k (hp ▸ pass2_kindAt h hx), hx]

/-- A CondLeft of the resolved code carries the distance to its match, which carries it too. -/
theorem pass2_getElem?_condLeft {immCap : Nat} {code resolved : List Instr} (h : pass2 immCap code = .ok resolved)
    {i d : Nat} (hi : resolved[i]? = some (.condLeft d)) :
    d ≤ immCap ∧ matchOf resolved i = some (i + d) ∧ resolved[i + d]? = some (.condRight d) := by
  obtain ⟨-, -, hpairs, -⟩ := bracketDistancesAreSymmetric immCap code resolved h
  obtain ⟨j, hj, hcap, hl, hr⟩ := hpairs i (pass2_kindAt h hi)
  obtain rfl : d = j - i := by simpa [hi] using hl
  have hij := (matchOf_spec hj).1
  rw [matchOf_congr (pass2_kinds h), Nat.add_sub_cancel' hij.le]
  exact ⟨hcap, hj, hr⟩

/-- A CondRight of the resolved code is the match of a CondLeft. -/
theorem pass2_getElem?_condRight {immCap : Nat} {code resolved : List Instr} (h : pass2 immCap code = .ok resolved)
    {j d : Nat} (hj : resolved[j]? = some (.condRight d)) :
    ∃ i e, resolved[i]? = some (.condLeft e) ∧ matchOf resolved i = some j := by
  obtain ⟨-, -, hpairs, hright⟩ := bracketDistancesAreSymmetric immCap code resolved h
  obtain ⟨i, hi, hm⟩ := hright j (pass2_kindAt h hj)
  obtain ⟨_, -, -, hl, -⟩ := hpairs i hi
  exact ⟨i, _, hl, (matchOf_congr (pass2_kinds h) i).trans hm⟩

/-- R70 with its two halves joined: a CondLeft and its match carry their distance, and every CondRight is a match. -/
theorem wellFormedProgram_iff_matches (code : List Instr) :
    wellFormedProgram code = true ↔
      (∀ i d, code[i]? = some (.condLeft d) →
        matchOf code i = some (i + d) ∧ code[i + d]? = some (.condRight d)) ∧
      (∀ j d, code[j]? = some (.condRight d) → ∃ i e, code[i]? = some (.condLeft e) ∧ matchOf code i = some j) := by
  constructor
  · refine fun h => ⟨fun i d hi => ?_, fun j d hj => ?_⟩
    · obtain ⟨-, -, hr, hm⟩ := wellFormedProgram_left h hi
      exact ⟨hm, hr⟩
    · obtain ⟨-, -, hl, hm⟩ := wellFormedProgram_right h hj
      exact ⟨_, d, hl, hm⟩
  · rintro ⟨hleft, hright⟩
    have hpos : ∀ i d, code[i]? = some (Instr.condLeft d) → 1 ≤ d := fun i d hi => by
      have := (matchOf_spec (hleft i d hi).1).1
      omega
    refine wellFormedProgram_of (fun i d hi => ?_) fun j d hj => ?_
    · obtain ⟨hm, hr⟩ := hleft i d hi
      exact ⟨hpos i d hi, (List.getElem?_eq_some_iff.1 hr).1, hr, hm⟩
    · obtain ⟨i, e, hi, hm⟩ := hright j d hj
      obtain ⟨hm', hr⟩ := hleft i e hi
      obtain rfl : j = i + e := Option.some.inj (hm.symm.trans hm')
      obtain rfl : d = e := by simpa [hj] using hr
      rw [RightMatched, Nat.add_sub_cancel]
      exact ⟨hpos i d hi, Nat.le_add_left d i, hi, hm⟩

theorem pass2_wellFormedProgram {immCap : Nat} {code resolved : List Instr} (h : pass2 immCap code = .ok resolved) :
    wellFormedProgram resolved = true :=
  (wellFormedProgram_iff_matches resolved).2
    ⟨fun _ _ hi => (pass2_getElem?_condLeft h hi).2, fun _ _ hj => pass2_getElem?_condRight h hj⟩

/-! ### Translated Programs -/

theorem translateSource_ok {immBits : Nat} {src : List Byte} {resolved : List Instr}
    (h : translateSource immBits src = .ok resolved) :
    ∃ code, pass1 (immCapOf immBits) 0 0 src = .ok code ∧ pass2 (immCapOf immBits) code = .ok resolved := by
  unfold translateSource at h
  split at h
  · cases h
  · next code hcode => exact ⟨code, hcode, h⟩

theorem Symbol.instr_imm (n : Nat) (s : Symbol) : (Symbol.instr n s).imm = n := by cases s <;> rfl

/-- The symbols that fold are those of the pointer moves (R74). -/
theorem Symbol.instr_isPointerMove (n : Nat) (s : Symbol) : (Symbol.instr n s).isPointerMove = s.folds := by
  cases s <;> rfl

theorem Emitted.imm_le {immCap : Nat} {i : Instr} (h : Emitted immCap i) : i.imm ≤ immCap := by
  obtain ⟨s, n, rfl, hn⟩ := h
  rw [Symbol.instr_imm]
  omega

/-- What pass 1 emits for a pointer move counts at least one symbol (R74). -/
theorem Emitted.one_le_imm {immCap : Nat} {i : Instr} (h : Emitted immCap i) (hi : i.isPointerMove = true) :
    1 ≤ i.imm := by
  obtain ⟨s, n, rfl, ⟨-, hpos, -⟩ | ⟨hs, -⟩⟩ := h
  · rwa [Symbol.instr_imm]
  · simp [Symbol.instr_isPointerMove, hs] at hi

theorem Emitted.canonical {immCap : Nat} {i : Instr} (h : Emitted immCap i) : i.canonical = true := by
  obtain ⟨s, n, rfl, ⟨hs, -⟩ | ⟨-, rfl⟩⟩ := h
  · rcases s.folds_iff.1 hs with rfl | rfl <;> rfl
  · cases s <;> rfl

/-- An instruction of a translated Program is a bracket with a distance within reach, or as pass 1 emitted it. -/
theorem translateSource_mem {immBits : Nat} {src : List Byte} {code : List Instr}
    (h : translateSource immBits src = .ok code) {i : Instr} (hi : i ∈ code) :
    (i.bracket ≠ .plain ∧ i.imm ≤ immCapOf immBits) ∨ (i.bracket = .plain ∧ Emitted (immCapOf immBits) i) := by
  obtain ⟨code₁, h₁, h₂⟩ := translateSource_ok h
  obtain ⟨k, hk⟩ := List.mem_iff_getElem?.1 hi
  cases hb : i.bracket with
  | plain => exact .inr ⟨rfl, pass1_emitted h₁ i (List.mem_of_getElem? (pass2_getElem?_plain h₂ hk hb))⟩
  | opens =>
    obtain ⟨d, rfl⟩ := (bracket_opens_iff i).1 hb
    exact .inl ⟨nofun, (pass2_getElem?_condLeft h₂ hk).1⟩
  | closes =>
    obtain ⟨d, rfl⟩ := (bracket_closes_iff i).1 hb
    obtain ⟨-, -, hl, -⟩ := wellFormedProgram_right (pass2_wellFormedProgram h₂) hk
    exact .inl ⟨nofun, (pass2_getElem?_condLeft h₂ hl).1⟩

/-- Settles O52: pass 2 gives well-formed code, and neither pass writes an immediate above IMM_CAP. -/
theorem translatedProgramsAreWellFormed : Obligations.TranslatedProgramsAreWellFormed := by
  unfold Obligations.TranslatedProgramsAreWellFormed
  intro immBits src code h
  obtain ⟨code₁, -, h₂⟩ := translateSource_ok h
  refine ⟨pass2_wellFormedProgram h₂, fun i hi => decide_eq_true ?_⟩
  rcases translateSource_mem h hi with ⟨-, himm⟩ | ⟨-, hem⟩
  · exact himm
  · exact hem.imm_le

/-- Two adjacent instructions that are no brackets stood side by side after pass 1, where no two moves of one direction
do. -/
theorem translateSource_adjacent {immBits : Nat} {src : List Byte} {code : List Instr}
    (h : translateSource immBits src = .ok code) {s : Symbol} (hs : s.folds = true) (k m n : Nat)
    (hk : code[k]? = some (s.instr m)) : code[k + 1]? ≠ some (s.instr n) := by
  obtain ⟨code₁, h₁, h₂⟩ := translateSource_ok h
  have hplain : ∀ c, (s.instr c).bracket = .plain := fun c =>
    Instr.bracket_of_isPointerMove ((Symbol.instr_isPointerMove c s).trans hs)
  intro hk'
  exact pass1_adjacent h₁ hs k m n (pass2_getElem?_plain h₂ hk (hplain m)) (pass2_getElem?_plain h₂ hk' (hplain n))

/-- Settles O53: a bracket is no pointer move and uses its immediate; everything else is as pass 1 emitted it. -/
theorem translatedProgramsAreFolded : Obligations.TranslatedProgramsAreFolded := by
  unfold Obligations.TranslatedProgramsAreFolded
  intro immBits src code h
  refine ⟨fun i hi hp => ?_, fun i hi => ?_, translateSource_adjacent h (s := .right) rfl,
    translateSource_adjacent h (s := .left) rfl⟩
  · rcases translateSource_mem h hi with ⟨hb, -⟩ | ⟨-, hem⟩
    · exact absurd (Instr.bracket_of_isPointerMove hp) hb
    · exact hem.one_le_imm hp
  · rcases translateSource_mem h hi with ⟨hb, -⟩ | ⟨-, hem⟩
    · exact Instr.canonical_of_bracket hb
    · exact hem.canonical

/-! ### The end of the jump range -/

/-- One bracket pair round `n` IncWords, with the immediate `d` in both brackets. -/
def pairAround (n d : Nat) : List Instr := .condLeft d :: (List.replicate n (.incWord 0) ++ [.condRight d])

theorem pairAround_getElem? (n d k : Nat) :
    (pairAround n d)[k]? =
      if k = 0 then some (.condLeft d) else if k ≤ n then some (.incWord 0)
      else if k = n + 1 then some (.condRight d) else none := by
  rcases k with - | k
  · rfl
  · rw [pairAround, List.getElem?_cons_succ, List.getElem?_append, List.getElem?_replicate, List.length_replicate,
      List.getElem?_singleton]
    grind

/-- The scan goes over instructions that are no brackets. -/
theorem scanForMatch_replicate_append {x : Instr} (hx : x.bracket = .plain) (n c : Nat) (rest : List Instr) :
    scanForMatch c (List.replicate n x ++ rest) = (scanForMatch c rest).map (· + n) := by
  induction n with
  | zero => simp
  | succ n ih =>
    rw [List.replicate_succ, List.cons_append, scanForMatch_plain hx, ih, Option.map_map]
    rfl

theorem matchOf_pairAround (n d : Nat) : matchOf (pairAround n d) 0 = some (n + 1) := by
  have hscan : scanForMatch 0 (List.replicate n (.incWord 0) ++ [.condRight d]) = some n := by
    rw [scanForMatch_replicate_append rfl, scanForMatch_closes_zero rfl]
    simp
  rw [matchOf, pairAround, List.drop_succ_cons, List.drop_zero, hscan]
  rfl

theorem pairAround_length (n d : Nat) : (pairAround n d).length = n + 2 := by simp [pairAround]

theorem kindAt_pairAround_opens (n d k : Nat) : kindAt (pairAround n d) k .opens = true ↔ k = 0 := by
  rw [kindAt, pairAround_getElem?]
  grind [Instr.bracket]

theorem kindAt_pairAround_closes (n d k : Nat) : kindAt (pairAround n d) k .closes = true ↔ k = n + 1 := by
  rw [kindAt, pairAround_getElem?]
  grind [Instr.bracket]

theorem kindAt_pairAround_plain {n k : Nat} (d : Nat) (hk : k ≠ 0) (hkn : k ≤ n) :
    kindAt (pairAround n d) k .plain = true := by
  rw [kindAt, pairAround_getElem?, if_neg hk, if_pos hkn]
  rfl

/-- At a distance of exactly IMM_CAP the pair resolves (R79). -/
theorem pass2_pairAround (n : Nat) : pass2 (n + 1) (pairAround n 0) = .ok (pairAround n (n + 1)) := by
  have hopens : kindAt (pairAround n 0) 0 .opens = true := (kindAt_pairAround_opens ..).2 rfl
  have hmatch := matchOf_pairAround n 0
  obtain ⟨resolved, h⟩ : ∃ resolved, pass2 (n + 1) (pairAround n 0) = .ok resolved := by
    refine pass2_succeeds (fun k hk => ?_) fun j hj => ?_
    · obtain rfl := (kindAt_pairAround_opens ..).1 hk
      exact ⟨n + 1, hmatch, le_rfl⟩
    · obtain rfl := (kindAt_pairAround_closes ..).1 hj
      exact ⟨0, hopens, hmatch⟩
  obtain ⟨hlen, hplain, hpairs, -⟩ := bracketDistancesAreSymmetric _ _ _ h
  obtain ⟨j, hj, -, hl, hr⟩ := hpairs 0 hopens
  obtain rfl : n + 1 = j := Option.some.inj (hmatch.symm.trans hj)
  have hequal : resolved = pairAround n (n + 1) := by
    refine List.ext_getElem? fun k => ?_
    rw [pairAround_getElem?]
    split_ifs with hk hkn hkr
    · rw [hk, hl, Nat.sub_zero]
    · rw [hplain k (kindAt_pairAround_plain 0 hk hkn), pairAround_getElem?, if_neg hk, if_pos hkn]
    · rw [hkr, hr, Nat.sub_zero]
    · refine List.getElem?_eq_none ?_
      rw [hlen, pairAround_length]
      omega
  rw [h, hequal]

/-- Settles O60: the first failing CondLeft decides, and of one pair the CondLeft is at 0 with its match at `n + 1`. -/
theorem jumpRangeEndsAtTheImmediateCapacity : Obligations.JumpRangeEndsAtTheImmediateCapacity := by
  unfold Obligations.JumpRangeEndsAtTheImmediateCapacity
  have hfails : ∀ (immCap i j : Nat) (code : List Instr), kindAt code i .opens = true → matchOf code i = some j →
      immCap < j - i → (∀ k < i, kindAt code k .opens = true → Resolves immCap code k) →
      pass2 immCap code = .error (.jumpRangeOverflow i) :=
    fun immCap i j code hi hj hcap h => (pass2_first_failing hi h).2 j hj hcap
  refine ⟨hfails, fun n => ⟨pass2_pairAround n, ?_⟩⟩
  exact hfails n 0 (n + 1) (pairAround n 0) ((kindAt_pairAround_opens ..).2 rfl) (matchOf_pairAround n 0)
    (Nat.lt_succ_self n) fun k hk => absurd hk (Nat.not_lt_zero k)

/-! ### The two readings of a well-formed Program -/

/-- The match that the scan finds from `index` on when `n` brackets are to be passed over, as an index of the code. -/
def scanFrom (code : List Instr) (index n : Nat) : Option Nat := (scanForMatch n (code.drop index)).map (· + index)

theorem matchOf_eq_scanFrom (code : List Instr) (i : Nat) : matchOf code i = scanFrom code (i + 1) 0 := rfl

theorem scanFrom_of_length_le {code : List Instr} {index : Nat} (h : code.length ≤ index) (n : Nat) :
    scanFrom code index n = none := by
  rw [scanFrom, List.drop_eq_nil_of_le h]
  rfl

theorem getElem?_of_drop_eq_cons {code rest : List Instr} {index : Nat} {x : Instr} (h : code.drop index = x :: rest) :
    code[index]? = some x ∧ code.drop (index + 1) = rest := by
  constructor
  · rw [← Nat.add_zero index, ← List.getElem?_drop, h, List.getElem?_cons_zero]
  · rw [← List.drop_drop, h, List.drop_succ_cons, List.drop_zero]

section

variable {code : List Instr} {index : Nat} {x : Instr} (hx : code[index]? = some x)
include hx

theorem drop_eq_cons_of_getElem? : code.drop index = x :: code.drop (index + 1) := by
  obtain ⟨hlt, rfl⟩ := List.getElem?_eq_some_iff.1 hx
  exact List.drop_eq_getElem_cons hlt

theorem scanFrom_step {n m : Nat}
    (h : ∀ rest, scanForMatch n (x :: rest) = (scanForMatch m rest).map (· + 1)) :
    scanFrom code index n = scanFrom code (index + 1) m := by
  rw [scanFrom, drop_eq_cons_of_getElem? hx, h, Option.map_map, scanFrom]
  congr 1
  funext k
  exact Nat.add_right_comm k 1 index

theorem scanFrom_plain (hb : x.bracket = .plain) (n : Nat) : scanFrom code index n = scanFrom code (index + 1) n :=
  scanFrom_step hx (scanForMatch_plain hb n)

theorem scanFrom_opens (hb : x.bracket = .opens) (n : Nat) :
    scanFrom code index n = scanFrom code (index + 1) (n + 1) :=
  scanFrom_step hx (scanForMatch_opens hb n)

theorem scanFrom_closes_succ (hb : x.bracket = .closes) (n : Nat) :
    scanFrom code index (n + 1) = scanFrom code (index + 1) n :=
  scanFrom_step hx (scanForMatch_closes_succ hb n)

theorem scanFrom_closes_zero (hb : x.bracket = .closes) : scanFrom code index 0 = some index := by
  rw [scanFrom, drop_eq_cons_of_getElem? hx, scanForMatch_closes_zero hb, Option.map_some, Nat.zero_add]

end

/-- The CondLefts that the balance check at `index`, with the brackets `stack` still open, has to pair up: each with its
index, its immediate and the match that the scan finds. It is on the stack or stands at or behind `index`. -/
inductive OpenBracket (code : List Instr) (index : Nat) (stack : List (Nat × Nat)) : Nat → Nat → Option Nat → Prop where
  | before (n : Nat) {i d : Nat} : stack[n]? = some (i, d) → OpenBracket code index stack i d (scanFrom code index n)
  | behind {i d : Nat} : index ≤ i → code[i]? = some (.condLeft d) → OpenBracket code index stack i d (matchOf code i)

theorem openBracket_iff (code : List Instr) (index : Nat) (stack : List (Nat × Nat)) (i d : Nat) (m : Option Nat) :
    OpenBracket code index stack i d m ↔
      (∃ n, stack[n]? = some (i, d) ∧ m = scanFrom code index n) ∨
        (index ≤ i ∧ code[i]? = some (.condLeft d) ∧ m = matchOf code i) := by
  constructor
  · rintro (⟨n, hn⟩ | ⟨hi, hget⟩)
    · exact .inl ⟨n, hn, rfl⟩
    · exact .inr ⟨hi, hget, rfl⟩
  · rintro (⟨n, hn, rfl⟩ | ⟨hi, hget, rfl⟩)
    · exact .before n hn
    · exact .behind hi hget

/-- Each of them has its match at its distance, a CondRight with the same distance; and every CondRight from `index` on is
the match of one. -/
structure PairsUp (code : List Instr) (index : Nat) (stack : List (Nat × Nat)) : Prop where
  left : ∀ i d m, OpenBracket code index stack i d m → m = some (i + d) ∧ code[i + d]? = some (.condRight d)
  right : ∀ j d, index ≤ j → code[j]? = some (.condRight d) → ∃ i e, OpenBracket code index stack i e (some j)

/-- At the start nothing is open, and what is to be paired up are the brackets of the code. -/
theorem wellFormedProgram_iff_pairsUp (code : List Instr) : wellFormedProgram code = true ↔ PairsUp code 0 [] := by
  rw [wellFormedProgram_iff_matches]
  constructor
  · rintro ⟨hleft, hright⟩
    refine ⟨fun i d m h => ?_, fun j d _ hj => ?_⟩
    · cases h with
      | before n hn => simp at hn
      | behind _ hi => exact hleft i d hi
    · obtain ⟨i, e, hi, hm⟩ := hright j d hj
      exact ⟨i, e, hm ▸ .behind (Nat.zero_le i) hi⟩
  · rintro ⟨hleft, hright⟩
    refine ⟨fun i d hi => hleft i d _ (.behind (Nat.zero_le i) hi), fun j d hj => ?_⟩
    obtain ⟨i, e, h⟩ := hright j d (Nat.zero_le j) hj
    obtain ⟨n, hn, -⟩ | ⟨-, hi, hm⟩ := (openBracket_iff ..).1 h
    · simp at hn
    · exact ⟨i, e, hi, hm.symm⟩

/-- Behind the end of the code only a CondLeft on the stack is left, and the scan finds no match for it. -/
theorem pairsUp_at_end {code : List Instr} {index : Nat} (h : code.length ≤ index) (stack : List (Nat × Nat)) :
    PairsUp code index stack ↔ stack = [] := by
  have hnone : ∀ i, index ≤ i → code[i]? = none := fun i hi => List.getElem?_eq_none (h.trans hi)
  constructor
  · intro hp
    cases stack with
    | nil => rfl
    | cons top open_ =>
      obtain ⟨hm, -⟩ := hp.left top.1 top.2 _ (.before 0 rfl)
      simp [scanFrom_of_length_le h] at hm
  · rintro rfl
    refine ⟨fun i d m ho => ?_, fun j d hj hget => by simp [hnone j hj] at hget⟩
    cases ho with
    | before n hn => simp at hn
    | behind hi hget => simp [hnone i hi] at hget

section

variable {code : List Instr} {index : Nat} {x : Instr} (hx : code[index]? = some x)
include hx

theorem condLeft_at_or_behind {i d : Nat} (hi : index ≤ i) (hget : code[i]? = some (.condLeft d)) :
    (i = index ∧ x = .condLeft d) ∨ index + 1 ≤ i := by
  rcases Nat.eq_or_lt_of_le hi with rfl | hlt
  · exact .inl ⟨rfl, Option.some.inj (hx.symm.trans hget)⟩
  · exact .inr hlt

/-- An instruction that is no bracket changes nothing of what is open. -/
theorem openBracket_plain (hb : x.bracket = .plain) (stack : List (Nat × Nat)) (i d : Nat) (m : Option Nat) :
    OpenBracket code index stack i d m ↔ OpenBracket code (index + 1) stack i d m := by
  constructor
  · rintro (⟨n, hn⟩ | ⟨hi, hget⟩)
    · exact scanFrom_plain hx hb n ▸ .before n hn
    · rcases condLeft_at_or_behind hx hi hget with ⟨-, rfl⟩ | hlt
      · cases hb
      · exact .behind hlt hget
  · rintro (⟨n, hn⟩ | ⟨hi, hget⟩)
    · exact scanFrom_plain hx hb n ▸ .before n hn
    · exact .behind (Nat.le_of_succ_le hi) hget

/-- A CondLeft passed by is on the stack; the scan passes over one bracket more for those below it. -/
theorem openBracket_opens {e : Nat} (he : x = .condLeft e) (stack : List (Nat × Nat)) (i d : Nat) (m : Option Nat) :
    OpenBracket code index stack i d m ↔ OpenBracket code (index + 1) ((index, e) :: stack) i d m := by
  subst he
  constructor
  · rintro (⟨n, hn⟩ | ⟨hi, hget⟩)
    · exact scanFrom_opens hx rfl n ▸ .before (n + 1) hn
    · rcases condLeft_at_or_behind hx hi hget with ⟨rfl, hd⟩ | hlt
      · obtain rfl : e = d := Instr.condLeft.inj hd
        rw [matchOf_eq_scanFrom]
        exact .before 0 rfl
      · exact .behind hlt hget
  · rintro (⟨n, hn⟩ | ⟨hi, hget⟩)
    · cases n with
      | zero =>
        cases hn
        rw [← matchOf_eq_scanFrom]
        exact .behind le_rfl hx
      | succ n => exact scanFrom_opens hx rfl n ▸ .before n hn
    · exact .behind (Nat.le_of_succ_le hi) hget

/-- A CondRight is the match of the innermost open bracket, and takes it off the stack. -/
theorem openBracket_closes (hb : x.bracket = .closes) (top : Nat × Nat) (stack : List (Nat × Nat)) (i d : Nat)
    (m : Option Nat) :
    OpenBracket code index (top :: stack) i d m ↔
      ((i, d) = top ∧ m = some index) ∨ OpenBracket code (index + 1) stack i d m := by
  constructor
  · rintro (⟨n, hn⟩ | ⟨hi, hget⟩)
    · cases n with
      | zero => exact .inl ⟨(Option.some.inj hn).symm, scanFrom_closes_zero hx hb⟩
      | succ n => exact .inr (scanFrom_closes_succ hx hb n ▸ .before n hn)
    · rcases condLeft_at_or_behind hx hi hget with ⟨-, rfl⟩ | hlt
      · cases hb
      · exact .inr (.behind hlt hget)
  · rintro (⟨rfl, rfl⟩ | ⟨n, hn⟩ | ⟨hi, hget⟩)
    · exact scanFrom_closes_zero hx hb ▸ .before 0 rfl
    · exact scanFrom_closes_succ hx hb n ▸ .before (n + 1) hn
    · exact .behind (Nat.le_of_succ_le hi) hget

/-- Past an instruction that closes nothing there are the same brackets to pair up. -/
theorem pairsUp_step (hb : x.bracket ≠ .closes) {stack stack' : List (Nat × Nat)}
    (h : ∀ i d m, OpenBracket code index stack i d m ↔ OpenBracket code (index + 1) stack' i d m) :
    PairsUp code index stack ↔ PairsUp code (index + 1) stack' := by
  constructor
  · rintro ⟨hleft, hright⟩
    refine ⟨fun i d m ho => hleft i d m ((h i d m).2 ho), fun j d hj hget => ?_⟩
    obtain ⟨i, e, ho⟩ := hright j d (Nat.le_of_succ_le hj) hget
    exact ⟨i, e, (h ..).1 ho⟩
  · rintro ⟨hleft, hright⟩
    refine ⟨fun i d m ho => hleft i d m ((h i d m).1 ho), fun j d hj hget => ?_⟩
    have hne : index ≠ j := by
      rintro rfl
      obtain rfl : x = .condRight d := Option.some.inj (hx.symm.trans hget)
      exact hb rfl
    obtain ⟨i, e, ho⟩ := hright j d (Nat.lt_of_le_of_ne hj hne) hget
    exact ⟨i, e, (h ..).2 ho⟩

theorem pairsUp_closes {d : Nat} (hd : x = .condRight d) (left distance : Nat) (stack : List (Nat × Nat)) :
    PairsUp code index ((left, distance) :: stack) ↔
      (d = distance ∧ left + distance = index) ∧ PairsUp code (index + 1) stack := by
  subst hd
  have hstep := openBracket_closes hx rfl (left, distance) stack
  constructor
  · rintro ⟨hleft, hright⟩
    obtain ⟨hm, hr⟩ := hleft left distance (some index) ((hstep ..).2 (.inl ⟨rfl, rfl⟩))
    obtain rfl : index = left + distance := Option.some.inj hm
    refine ⟨⟨by simpa [hx] using hr, rfl⟩, fun i e m ho => hleft i e m ((hstep ..).2 (.inr ho)), fun j e hj hget => ?_⟩
    obtain ⟨i, e', ho⟩ := hright j e (Nat.le_of_succ_le hj) hget
    rcases (hstep ..).1 ho with ⟨-, hm⟩ | ho
    · exact absurd (Option.some.inj hm) (Nat.ne_of_gt hj)
    · exact ⟨i, e', ho⟩
  · rintro ⟨⟨rfl, rfl⟩, hleft, hright⟩
    refine ⟨fun i e m ho => ?_, fun j e hj hget => ?_⟩
    · rcases (hstep ..).1 ho with ⟨heq, rfl⟩ | ho
      · cases heq
        exact ⟨rfl, hx⟩
      · exact hleft i e m ho
    · rcases Nat.eq_or_lt_of_le hj with rfl | hlt
      · exact ⟨left, d, (hstep ..).2 (.inl ⟨rfl, rfl⟩)⟩
      · obtain ⟨i, e', ho⟩ := hright j e hlt hget
        exact ⟨i, e', (hstep ..).2 (.inr ho)⟩

/-- With nothing open a CondRight is the match of no CondLeft: the match of one behind it lies further behind. -/
theorem not_pairsUp_closes_nil {d : Nat} (hd : x = .condRight d) : ¬ PairsUp code index [] := by
  rintro ⟨-, hright⟩
  obtain ⟨i, e, ho⟩ := hright index d le_rfl (hd ▸ hx)
  obtain ⟨n, hn, -⟩ | ⟨hi, -, hm⟩ := (openBracket_iff ..).1 ho
  · simp at hn
  · exact absurd (matchOf_spec hm.symm).1 (Nat.not_lt.2 hi)

end

/-! #### The balance check, instruction by instruction -/

theorem bracketsBalance_nil (index : Nat) (stack : List (Nat × Nat)) :
    bracketsBalance index stack [] = true ↔ stack = [] := by
  cases stack <;> simp [bracketsBalance]

theorem bracketsBalance_plain {x : Instr} (hb : x.bracket = .plain) (index : Nat) (stack : List (Nat × Nat))
    (rest : List Instr) :
    bracketsBalance index stack (x :: rest) = bracketsBalance (index + 1) stack rest := by
  simp [bracketsBalance, hb]

theorem bracketsBalance_condLeft (index d : Nat) (stack : List (Nat × Nat)) (rest : List Instr) :
    bracketsBalance index stack (.condLeft d :: rest) = bracketsBalance (index + 1) ((index, d) :: stack) rest := by
  cases stack <;> rfl

theorem bracketsBalance_condRight (index d left distance : Nat) (stack : List (Nat × Nat)) (rest : List Instr) :
    bracketsBalance index ((left, distance) :: stack) (.condRight d :: rest) = true ↔
      (d = distance ∧ left + distance = index) ∧ bracketsBalance (index + 1) stack rest = true := by
  show (decide (d = distance) && decide (left + distance = index) && bracketsBalance (index + 1) stack rest) = true ↔ _
  simp

theorem bracketsBalance_condRight_nil (index d : Nat) (rest : List Instr) :
    bracketsBalance index [] (.condRight d :: rest) = false := rfl

/-- The balance check accepts the rest of the code exactly when the brackets still to be paired up do. -/
theorem bracketsBalance_iff_pairsUp {code rest : List Instr} {index : Nat} (h : code.drop index = rest)
    (stack : List (Nat × Nat)) : bracketsBalance index stack rest = true ↔ PairsUp code index stack := by
  induction rest generalizing index stack with
  | nil => rw [bracketsBalance_nil, pairsUp_at_end (List.drop_eq_nil_iff.1 h)]
  | cons x rest ih =>
    obtain ⟨hx, hrest⟩ := getElem?_of_drop_eq_cons h
    cases hb : x.bracket with
    | plain =>
      rw [bracketsBalance_plain hb, ih hrest, pairsUp_step hx (by simp [hb]) (openBracket_plain hx hb stack)]
    | opens =>
      obtain ⟨d, rfl⟩ := (bracket_opens_iff x).1 hb
      rw [bracketsBalance_condLeft, ih hrest, pairsUp_step hx nofun (openBracket_opens hx rfl stack)]
    | closes =>
      obtain ⟨d, rfl⟩ := (bracket_closes_iff x).1 hb
      cases stack with
      | nil => simp [bracketsBalance_condRight_nil, not_pairsUp_closes_nil hx rfl]
      | cons top stack => rw [bracketsBalance_condRight, ih hrest, pairsUp_closes hx rfl]

/-- Settles O55: both readings say that all brackets pair up. -/
theorem scanAndBalanceAgree : Obligations.ScanAndBalanceAgree := by
  unfold Obligations.ScanAndBalanceAgree
  intro code
  rw [wellFormedProgram_iff_pairsUp, bracketsBalance_iff_pairsUp (List.drop_zero ..)]

end Sys2Proof.Machine

end

/-! Proofs of the cycle statements (40_cycle.md): the guard (R91), the fetch (R92) and the step (R90, R93), the
unconditional advance (R94), the halt that lasts until a reset (R96), and the ceiling that ends a run (R98). -/

section

namespace Sys2Proof.Machine

/-! ### The guard, the fetch and the step -/

theorem State.belowCeiling_iff_none_or (s : State) :
    s.belowCeiling = true ↔
      s.config.stepCeiling = none ∨ ∃ n, s.config.stepCeiling = some n ∧ s.stepCount < n := by
  rw [State.belowCeiling_iff]
  cases s.config.stepCeiling <;> simp

theorem State.boundsHold_iff_or (s : State) :
    s.boundsHold = true ↔ s.config.boundsCheck = false ∨ s.dp < s.config.tapeSize := by
  rw [State.boundsHold_iff, imp_iff_not_or, Bool.not_eq_true]

/-- At the ceiling, and above it, the second term of the guard is false (R91). -/
theorem State.guard_false_of_ceiling_le {s : State} {n : Nat} (hn : s.config.stepCeiling = some n)
    (h : n ≤ s.stepCount) : s.guard = false := by
  rw [← Bool.not_eq_true]
  intro hg
  obtain ⟨-, hceil, -⟩ := (State.guard_iff s).1 hg
  exact Nat.not_lt.2 h ((State.belowCeiling_iff s).1 hceil n hn)

/-- Settles O12: the three terms one by one. -/
theorem guardIsTheConjunctionOfItsTerms : Obligations.GuardIsTheConjunctionOfItsTerms := by
  unfold Obligations.GuardIsTheConjunctionOfItsTerms
  refine fun s => ⟨?_, fun n hn hcount => State.guard_false_of_ceiling_le hn hcount.ge⟩
  rw [State.guard_iff, State.belowCeiling_iff_none_or, State.boundsHold_iff_or, State.progLen]

theorem State.current_of_guard {s : State} {w : Nat} (hrec : s.haltedAs = none) (hg : s.guard = true)
    (hw : s.program[s.ip]? = some w) : s.current = some (decode s.config.immBits w) :=
  (State.current_eq_some ..).2 ⟨(State.running_iff s).2 ⟨hrec, hg⟩, w, hw, rfl⟩

theorem State.halted_of_guard {s : State} (h : s.guard = false) : s.halted = true := by
  simp [State.halted, State.running, h]

/-- A halt on record gives every step a meaning, whatever the configuration (D27). -/
theorem step_of_recorded {s : State} {r : HaltRecord} (h : s.haltedAs = some r) : step s = .next s :=
  step_of_halted (.inl (by simp [h])) (State.halted_of_recorded h).1

theorem State.not_meaningful {s : State} (hrec : s.haltedAs = none) (hl : ¬ LegalConfig s.config s.progLen) :
    ¬ s.Meaningful := by
  rintro (hm | hm)
  · simp [hrec] at hm
  · exact hl hm

/-- Settles O11: a step is that of the current instruction, of a halted core, or the refusal. -/
theorem stepRunsTheDecodedInstruction : Obligations.StepRunsTheDecodedInstruction := by
  unfold Obligations.StepRunsTheDecodedInstruction
  refine ⟨fun s w hrec hl hg hw => ?_, fun s hl hg => ?_, fun s hrec => ?_, fun s hrec hl => ?_⟩
  · exact step_of_current hl (State.current_of_guard hrec hg hw)
  · exact step_of_halted (.inr hl) (State.halted_of_guard hg)
  · obtain ⟨r, hr⟩ := Option.ne_none_iff_exists'.1 hrec
    exact step_of_recorded hr
  · exact (step_eq_refused ..).2 (.inl ⟨State.not_meaningful hrec hl, rfl⟩)

/-- Settles O57: the guard has found `ip` in the Program, so there is a word to fetch. -/
theorem fetchReadsTheWordAtIp : Obligations.FetchReadsTheWordAtIp := by
  unfold Obligations.FetchReadsTheWordAtIp
  intro s hg
  obtain ⟨hip, -, -⟩ := (State.guard_iff s).1 hg
  have hw : s.program[s.ip]? = some (s.program[s.ip]'hip) := List.getElem?_eq_getElem hip
  refine ⟨hip, _, hw, hw, fun hrec => ?_⟩
  have hcur := State.current_of_guard hrec hg hw
  exact ⟨hcur, fun hl => step_of_current hl hcur⟩

/-! ### The advance -/

/-- Only a taken bracket writes `ip` (R130, R131). -/
theorem Effect.ip_eq {s u : State} {i : Instr} (h : Effect s i u) : u.ip = ipBeforeAdvance i s := by
  cases h with
  | skip imm hd hz hl => exact (if_pos hz).symm
  | enter imm hd hz => exact (if_neg hz).symm
  | back imm hd hz hl => exact (if_neg hz).symm
  | leave imm hd hz => exact (if_pos hz).symm
  | input imm r ch hd hr => simp [ipBeforeAdvance]
  | _ => rfl

/-- An Input that has its effect has been answered (R120). -/
theorem Effect.answered {s u : State} {i : Instr} (h : Effect s i u) :
    ¬ ((∃ imm, i = .input imm) ∧ s.input.request = none) := by
  rintro ⟨⟨imm, rfl⟩, hnone⟩
  cases h with
  | input imm r ch hd hr => simp [hnone] at hr

/-- Settles O13: an instruction answers a next state by its effect and the advance, or by the hold of an Input. -/
theorem advanceIsUnconditional : Obligations.AdvanceIsUnconditional := by
  unfold Obligations.AdvanceIsUnconditional
  intro i s t h
  rcases (exec_eq_next i s t).1 h with ⟨u, hu, rfl⟩ | ⟨⟨hin, -, hnone⟩, rfl⟩
  · refine ⟨fun hhold => absurd hhold hu.answered, fun _ => ?_⟩
    rw [State.advance_ip, State.advance_stepCount, hu.ip_eq, hu.stepCount_eq]
    exact ⟨rfl, rfl⟩
  · exact ⟨fun _ => rfl, fun hexec => absurd ⟨hin, hnone⟩ hexec⟩

/-! ### The halt -/

theorem runs_of_step_self {s : State} (h : step s = .next s) (n : Nat) : Runs n s s := by
  induction n with
  | zero => exact (runs_zero s s).2 rfl
  | succ n ih => exact (runs_succ n s s).2 ⟨s, h, ih⟩

theorem runs_of_halted {s : State} (hm : s.Meaningful) (h : s.halted = true) (n : Nat) : Runs n s s :=
  runs_of_step_self (step_of_halted hm h) n

section

variable {s : State} (h : s.halted = true) (m : HostMove)
include h

theorem State.hostMove_halted : (s.hostMove m).halted = true :=
  (State.halted_of_recorded (State.hostMove_haltedAs h m)).1

/-- The class on record is that of the halted state before the move (D27). -/
theorem State.hostMove_exitClass : (s.hostMove m).exitClass = s.exitClass := by
  rw [(State.halted_of_recorded (State.hostMove_haltedAs h m)).2, State.exitClass, if_pos h]

/-- `fault_ip` is read from the class and `ip`, which are both as before (R144). -/
theorem State.hostMove_faultIp : (s.hostMove m).faultIp = s.faultIp := by
  rw [State.faultIp, State.hostMove_exitClass h, State.hostMove_ip]
  rfl

theorem State.hostMove_recordedClass : (s.hostMove m).haltedAs.map HaltRecord.exitClass = s.exitClass := by
  rw [State.hostMove_haltedAs h, State.exitClass, if_pos h]
  rfl

theorem State.hostMove_countLine : (s.hostMove m).countLine = s.countLine := by
  rw [State.countLine, State.hostMove_halted h, State.hostMove_runConfig, State.hostMove_stepCount, State.countLine, h]

end

/-- What the sink shows follows the configuration of the run that the halt has ended (R124). -/
theorem State.hostMove_rendered (s : State) (m : HostMove) : (s.hostMove m).rendered = s.rendered := by
  rw [State.rendered, State.hostMove_runConfig, State.hostMove_output, State.rendered]

/-- Settles O15: a halted core is its own next state, and a move of the host puts its halt on record. -/
theorem haltedCoreStaysHalted : Obligations.HaltedCoreStaysHalted := by
  unfold Obligations.HaltedCoreStaysHalted
  refine ⟨fun s n hm h => runs_of_halted hm h n, ?_, fun s m h => State.hostMove_of_running h m, fun s t h => ?_⟩
  · rintro s m h _ rfl
    exact ⟨State.hostMove_halted h m, State.hostMove_exitClass h m, State.hostMove_faultIp h m,
      State.hostMove_recordedClass h m, s.hostMove_ip m, s.hostMove_dp m, s.hostMove_stepCount m, s.hostMove_tape m,
      s.hostMove_inputRequest m, s.hostMove_output m, s.hostMove_rendered m, State.hostMove_countLine h m,
      runs_of_step_self (step_of_recorded (State.hostMove_haltedAs h m))⟩
  · obtain ⟨-, -, -, -, -, -, hrec⟩ := State.resetState_of_resetRun h
    exact hrec

/-! ### The ceiling ends a run that does not hold -/

theorem State.halted_of_ceiling_le {s : State} {n : Nat} (hn : s.config.stepCeiling = some n)
    (h : n ≤ s.stepCount) : s.halted = true :=
  State.halted_of_guard (State.guard_false_of_ceiling_le hn h)

/-- A step that is no hold counts one instruction, or is that of a halted core (R18, R23). -/
theorem step_of_not_holds {s t : State} (h : step s = .next t) (hk : s.stepKind ≠ .holds) :
    (s.halted = true ∧ t = s) ∨ t.stepCount = s.stepCount + 1 := by
  have hcase := s.stepCase
  rw [h] at hcase
  cases hkind : s.stepKind with
  | halts c =>
    obtain ⟨hts, hclass⟩ := (hkind ▸ hcase).of_halts
    exact .inl ⟨((State.exitClass_eq_some ..).1 hclass).1, Host.Outcome.next.inj hts⟩
  | executes =>
    obtain ⟨u, hu, hcount, -⟩ := (hkind ▸ hcase).of_executes
    exact .inr (Host.Outcome.next.inj hu ▸ hcount)
  | holds => exact absurd hkind hk
  | faults f => exact nomatch (hkind ▸ hcase).of_faults
  | refuses r => exact nomatch (hkind ▸ hcase).of_refuses

/-- By induction on the number of steps: each but those of a halted core brings `step_count` nearer to the ceiling. -/
theorem halted_of_runs_to_ceiling {ceiling n : Nat} {s t : State} (hceil : s.config.stepCeiling = some ceiling)
    (hholds : ∀ k u, k < n → Runs k s u → u.stepKind ≠ .holds) (hn : ceiling ≤ s.stepCount + n) (h : Runs n s t) :
    t.halted = true := by
  induction n generalizing s with
  | zero =>
    obtain rfl := (runs_zero s t).1 h
    exact State.halted_of_ceiling_le hceil hn
  | succ n ih =>
    obtain ⟨u, hu, hrest⟩ := (runs_succ n s t).1 h
    rcases step_of_not_holds hu (hholds 0 s n.succ_pos ((runs_zero s s).2 rfl)) with ⟨hs, rfl⟩ | hcount
    · obtain rfl : t = u := Host.Outcome.next.inj (hrest.symm.trans (runs_of_step_self hu n))
      exact hs
    · obtain ⟨-, hconf⟩ := step_sameStore hu
      refine ih (hconf ▸ hceil) (fun k v hk hv => ?_) (by omega) hrest
      exact hholds (k + 1) v (Nat.succ_lt_succ hk) ((runs_succ k s v).2 ⟨u, hu, hv⟩)

/-! ### Scenario B: a run without end -/

/-- A state of the run of the Program `+[]` (S-B). -/
def scenarioBAt (ip stepCount : Nat) (tape : Memory) : State :=
  { State.reset with
    program := [0x0000, 0x000C, 0x000D]
    input := { pending := [], exhausted := true }
    ip := ip
    tape := tape
    stepCount := stepCount }

/-- Cell 0 becomes 1, and from then on the CondRight at index 2 goes back to the CondLeft, whose advance leads to the
CondRight again. -/
def scenarioB : Nat → State
  | 0 => scenarioBAt 0 0 []
  | 1 => scenarioBAt 1 1 [(0, 1)]
  | n + 2 => scenarioBAt 2 (n + 2) [(0, 1)]

theorem scenarioB_launched : launch Config.default [0x0000, 0x000C, 0x000D] { pending := [], exhausted := true } =
    .next (scenarioB 0) := by
  rfl

/-- At index 2 the CondRight of `+[]` finds cell 0 not zero and comes back to itself (R131). -/
theorem scenarioBAt_step_back (n : Nat) :
    step (scenarioBAt 2 n [(0, 1)]) = .next (scenarioBAt 2 (n + 1) [(0, 1)]) := by
  have hlegal : LegalConfig Config.default 3 := by decide
  have hdecode : decode Config.default.immBits 0x000D = .condRight 1 := by decide
  have hcur : (scenarioBAt 2 n [(0, 1)]).current = some (.condRight 1) :=
    (State.current_eq_some ..).2 ⟨rfl, 0x000D, rfl, hdecode⟩
  have hback := Effect.back (s := scenarioBAt 2 n [(0, 1)]) 1 (show 0 < 32768 by decide) (show (1 : Byte) ≠ 0 by decide)
    (show 1 ≤ 2 by decide)
  rw [step_of_current hlegal hcur]
  exact (exec_eq_next ..).2 (.inl ⟨_, hback, rfl⟩)

theorem scenarioB_step (n : Nat) : step (scenarioB n) = .next (scenarioB (n + 1)) := by
  match n with
  | 0 => rfl
  | 1 => rfl
  | n + 2 => exact scenarioBAt_step_back (n + 2)

theorem scenarioB_runs (n : Nat) : Runs n (scenarioB 0) (scenarioB n) := by
  induction n with
  | zero => exact (runs_zero ..).2 rfl
  | succ n ih => exact (runs_add n 1 ..).2 ⟨scenarioB n, ih, (runs_one ..).2 (scenarioB_step n)⟩

theorem scenarioB_not_halted (n : Nat) : (scenarioB n).halted = false := by
  match n with
  | 0 => rfl
  | 1 => rfl
  | n + 2 => rfl

/-- Settles O43: the ceiling by `halted_of_runs_to_ceiling`, and the run of Scenario B. -/
theorem onlyACeilingEndsEveryRun : Obligations.OnlyACeilingEndsEveryRun := by
  unfold Obligations.OnlyACeilingEndsEveryRun
  refine ⟨fun s t ceiling n hceil hholds hn h => halted_of_runs_to_ceiling hceil hholds hn h, ?_⟩
  exact ⟨scenarioB 0, scenarioB_launched, fun n => ⟨scenarioB n, scenarioB_runs n, scenarioB_not_halted n⟩⟩

/-! ### The ceiling ends a run whose requests are answered -/

/-- A step of a running core counts one instruction, or is a hold with its request not answered (R23, R121). -/
theorem step_of_not_halted {s t : State} (hs : s.halted = false) (h : step s = .next t) :
    t.stepCount = s.stepCount + 1 ∨ (s.input.request = none ∧ t.inputRequest = true) := by
  obtain ⟨-, ⟨hrun, -⟩ | ⟨i, -, he⟩⟩ := (step_eq_next s t).1 h
  · simp [(State.halted_iff s).2 hrun] at hs
  · rcases (exec_eq_next i s t).1 he with ⟨u, hu, rfl⟩ | ⟨⟨-, -, hnone⟩, rfl⟩
    · exact .inl (by rw [State.advance_stepCount, hu.stepCount_eq])
    · exact .inr ⟨hnone, rfl⟩

/-- The ceiling is `n`, and `step_count` has not passed it (R91). -/
def State.AtMostCeiling (n : Nat) (s : State) : Prop := s.config.stepCeiling = some n ∧ s.stepCount ≤ n

theorem step_atMostCeiling {n : Nat} {s t : State} (hs : s.AtMostCeiling n) (h : step s = .next t) :
    t.AtMostCeiling n := by
  obtain ⟨hceil, hcount⟩ := hs
  refine ⟨(step_sameStore h).2 ▸ hceil, ?_⟩
  rcases step_next_cases h with rfl | ⟨i, u, hi, hu, rfl⟩ | ⟨imm, -, -, rfl⟩
  · exact hcount
  · obtain ⟨-, hbelow, -⟩ := (State.guard_iff s).1 (State.of_current hi).2
    rw [State.advance_stepCount, hu.stepCount_eq]
    exact (State.belowCeiling_iff s).1 hbelow n hceil
  · exact hcount

section

variable {env : Nat → List InputMove} {trace : Nat → State} (hrun : RunUnder env trace)
include hrun

theorem RunUnder.atMostCeiling {ceiling : Nat} (h : (trace 0).AtMostCeiling ceiling) (n : Nat) :
    (trace n).AtMostCeiling ceiling := by
  refine runUnder_invariant (P := State.AtMostCeiling ceiling) (fun s moves hs => ?_)
    (fun s t hs hstep => step_atMostCeiling hs hstep) hrun h n
  rwa [State.AtMostCeiling, State.answers_config, State.answers_stepCount]

/-- In a run that never halts a step counts one instruction, or holds with its request not answered. -/
theorem RunUnder.counts_or_holds (hnever : ∀ n, (trace n).halted = false) (n : Nat) :
    (trace (n + 1)).stepCount = (trace n).stepCount + 1 ∨
      (((trace n).answers (env n)).input.request = none ∧ (trace (n + 1)).inputRequest = true) := by
  have hstep := step_of_not_halted (by rw [State.answers_halted, hnever n]) (hrun n)
  rwa [State.answers_stepCount] at hstep

theorem RunUnder.stepCount_mono : Monotone fun n => (trace n).stepCount := by
  refine monotone_nat_of_le_succ fun n => ?_
  have hstep := step_stepCount (hrun n)
  rw [State.answers_stepCount] at hstep
  omega

/-- In a run that never halts some later step counts: a hold raises a request, and the step at which that is answered is
no hold (R121). -/
theorem RunUnder.counts_again (hans : InputAnswers env trace) (hnever : ∀ n, (trace n).halted = false) (n : Nat) :
    ∃ m, n ≤ m ∧ (trace (m + 1)).stepCount = (trace m).stepCount + 1 := by
  rcases hrun.counts_or_holds hnever n with hcount | ⟨-, hreq⟩
  · exact ⟨n, le_rfl, hcount⟩
  · obtain ⟨m, hm, hsome⟩ := hans.1 (n + 1) hreq
    rcases hrun.counts_or_holds hnever m with hcount | ⟨hnone, -⟩
    · exact ⟨m, Nat.le_of_succ_le hm, hcount⟩
    · simp [hnone] at hsome

/-- A run that never halts executes any number of instructions. -/
theorem RunUnder.stepCount_unbounded (hans : InputAnswers env trace) (hnever : ∀ n, (trace n).halted = false)
    (count : Nat) : ∃ n, count ≤ (trace n).stepCount := by
  induction count with
  | zero => exact ⟨0, Nat.zero_le _⟩
  | succ count ih =>
    obtain ⟨n, hn⟩ := ih
    obtain ⟨m, hnm, hm⟩ := hrun.counts_again hans hnever n
    refine ⟨m + 1, ?_⟩
    rw [hm]
    exact Nat.succ_le_succ (hn.trans (hrun.stepCount_mono hnm))

end

/-- Settles O58: a run that never halts would reach the ceiling, where it halts. -/
theorem ceilingEndsEveryAnsweredRun : Obligations.CeilingEndsEveryAnsweredRun := by
  unfold Obligations.CeilingEndsEveryAnsweredRun
  intro env trace ceiling hrun hans hceil hcount
  have hmost := hrun.atMostCeiling ⟨hceil, hcount⟩
  suffices hhalts : ∃ n, (trace n).halted = true by
    obtain ⟨n, hn⟩ := hhalts
    exact ⟨n, hn, (hmost n).2⟩
  by_contra hnever
  simp only [not_exists, Bool.not_eq_true] at hnever
  obtain ⟨n, hn⟩ := hrun.stepCount_unbounded hans hnever ceiling
  have hhalted := State.halted_of_ceiling_le (hmost n).1 hn
  simp [hnever n] at hhalted

end Sys2Proof.Machine

end

/-! Proofs of the cell arithmetic statements (41_cell_arith.md): IncWord (R100), DecWord (R101), the sum modulo 256 of any
sequence of them (R102), and their frame. -/

section

namespace Sys2Proof

theorem decode_of_mod_eq {w opc : Nat} (h : w % 8 = opc) (immBits : Nat) :
    decode immBits w = instrOf opc (immField immBits w) := by
  rw [decode, opcField_eq, h]

end Sys2Proof

namespace Sys2Proof.Machine

/-! ### Where an instruction faults -/

theorem faultsOffTheTape_of_accessesTape {i : Instr} (h : i.accessesTape = true) : FaultsOffTheTape i :=
  fun s hoff => (exec_eq_fault i s _).2 ⟨h, hoff, rfl⟩

theorem neverFaultsWhenChecked (i : Instr) : NeverFaultsWhenChecked i :=
  fun _ f hcheck _ => step_ne_fault_of_boundsCheck hcheck f

/-! ### One store and the advance -/

theorem exec_of_effect {s u : State} {i : Instr} (h : Effect s i u) : exec i s = .next u.advance :=
  (exec_eq_next i s _).2 (.inl ⟨u, h, rfl⟩)

theorem State.setCell_read_dp {s : State} (hs : s.tape.wf = true) (v : Byte) : (s.setCell v).tape.read s.dp = v := by
  rw [State.setCell_tape, Memory.read_write hs, if_pos rfl]

/-- An instruction whose whole effect is to store `v` in the current cell: the cell, its frame, and the state it leaves. -/
theorem exec_of_setCell_effect {s : State} {i : Instr} {v : Byte} (h : Effect s i (s.setCell v))
    (hs : s.tape.wf = true) :
    ∃ t, exec i s = .next t ∧ t.tape.read s.dp = v ∧ SameOtherCells s t ∧
      t = { s with tape := t.tape, ip := s.ip + 1, stepCount := s.stepCount + 1 } :=
  ⟨_, exec_of_effect h, State.setCell_read_dp hs v, s.setCell_sameOtherCells v, rfl⟩

/-- Settles O21: its effect is one store, and the sum of two bytes is reduced modulo 256. -/
theorem incWordAddsOneToTheCurrentCell : Obligations.IncWordAddsOneToTheCurrentCell := by
  unfold Obligations.IncWordAddsOneToTheCurrentCell
  refine ⟨fun immBits w h => decode_of_mod_eq h immBits, rfl,
    fun immCap pos rest => pass1_single immCap pos (s := .plus) rfl rfl rest, fun imm s hs hd => ?_,
    fun imm => ⟨faultsOffTheTape_of_accessesTape rfl, neverFaultsWhenChecked _⟩⟩
  obtain ⟨t, hexec, hcell, hframe⟩ := exec_of_setCell_effect (.incWord imm hd) hs
  refine ⟨t, hexec, ?_, hframe⟩
  rw [hcell]
  exact BitVec.toNat_add ..

/-- Settles O22: its effect is one store, and to subtract 1 from a byte is to add 255 modulo 256. -/
theorem decWordTakesOneFromTheCurrentCell : Obligations.DecWordTakesOneFromTheCurrentCell := by
  unfold Obligations.DecWordTakesOneFromTheCurrentCell
  refine ⟨fun immBits w h => decode_of_mod_eq h immBits, rfl,
    fun immCap pos rest => pass1_single immCap pos (s := .minus) rfl rfl rest, fun imm s hs hd => ?_,
    fun imm => ⟨faultsOffTheTape_of_accessesTape rfl, neverFaultsWhenChecked _⟩⟩
  obtain ⟨t, hexec, hcell, hframe⟩ := exec_of_setCell_effect (.decWord imm hd) hs
  refine ⟨t, hexec, ?_, hframe⟩
  rw [hcell, Nat.add_comm]
  exact BitVec.toNat_sub ..

/-! ### The frame -/

/-- IncWord and DecWord store to the current cell and have no other effect (R100, R101). -/
theorem Effect.eq_setCell_of_cellArithmetic {s u : State} {i : Instr} (h : Effect s i u) (hi : i.opc = 0 ∨ i.opc = 1) :
    ∃ v, u = s.setCell v := by
  cases h with
  | incWord imm hd => exact ⟨_, rfl⟩
  | decWord imm hd => exact ⟨_, rfl⟩
  | _ => simp [Instr.opc] at hi

/-- Settles O24: the effect is one store to the current cell, and an Input that holds is no cell arithmetic. -/
theorem cellArithmeticFrame : Obligations.CellArithmeticFrame := by
  unfold Obligations.CellArithmeticFrame
  intro i s t hi h
  rcases (exec_eq_next i s t).1 h with ⟨u, hu, rfl⟩ | ⟨⟨⟨imm, rfl⟩, -, -⟩, -⟩
  · obtain ⟨v, rfl⟩ := hu.eq_setCell_of_cellArithmetic hi
    exact ⟨rfl, s.setCell_sameOtherCells v, ⟨rfl, rfl⟩, ⟨rfl, rfl, rfl⟩, rfl⟩
  · simp [Instr.opc] at hi

/-! ### The sum of a sequence -/

theorem netIncrements_cons (i : Instr) (code : List Instr) :
    netIncrements (i :: code) = netIncrements [i] + netIncrements code := by
  simp only [netIncrements, List.countP_cons, List.countP_nil]
  omega

/-- R100 and R101 in one: the byte added is the instruction's own net count. -/
theorem effect_of_cellArithmetic {s : State} {i : Instr} (hi : i.opc = 0 ∨ i.opc = 1)
    (hd : s.dp < s.config.tapeSize) : Effect s i (s.setCell (s.cell + BitVec.ofInt 8 (netIncrements [i]))) := by
  cases i with
  | incWord imm => exact .incWord imm hd
  | decWord imm =>
    have h : s.cell - 1 = s.cell + BitVec.ofInt 8 (netIncrements [.decWord imm]) := BitVec.sub_eq_add_neg ..
    exact h ▸ .decWord imm hd
  | _ => simp [Instr.opc] at hi

/-- From `s` to `t` the number `n` is added to the current cell modulo 256, and no other cell and not `dp` changes
(R102). -/
structure AddsToCell (n : Int) (s t : State) : Prop where
  dp : t.dp = s.dp
  wf : t.tape.wf = true
  cell : t.tape.read s.dp = s.tape.read s.dp + BitVec.ofInt 8 n
  others : SameOtherCells s t

theorem AddsToCell.refl {s : State} (hs : s.tape.wf = true) : AddsToCell 0 s s :=
  ⟨rfl, hs, (BitVec.add_zero _).symm, fun _ _ => rfl⟩

theorem AddsToCell.trans {m n : Int} {s u t : State} (hsu : AddsToCell m s u) (hut : AddsToCell n u t) :
    AddsToCell (m + n) s t where
  dp := hut.dp.trans hsu.dp
  wf := hut.wf
  cell := by rw [← hsu.dp, hut.cell, hsu.dp, hsu.cell, BitVec.add_assoc, BitVec.ofInt_add]
  others := fun a ha => (hut.others a (hsu.dp ▸ ha)).trans (hsu.others a ha)

theorem addsToCell_setCell_advance {s : State} (hs : s.tape.wf = true) (n : Int) :
    AddsToCell n s (s.setCell (s.cell + BitVec.ofInt 8 n)).advance :=
  ⟨rfl, Memory.write_wf hs .., State.setCell_read_dp hs _, s.setCell_sameOtherCells _⟩

theorem execAll_addsToCell {code : List Instr} {s : State} (hcode : CellArithmetic code) (hs : s.tape.wf = true)
    (hd : s.dp < s.config.tapeSize) : ∃ t, execAll code s = .next t ∧ AddsToCell (netIncrements code) s t := by
  induction code generalizing s with
  | nil => exact ⟨s, rfl, .refl hs⟩
  | cons i code ih =>
    obtain ⟨hi, hrest⟩ := List.forall_mem_cons.1 hcode
    have hfirst := addsToCell_setCell_advance hs (netIncrements [i])
    obtain ⟨t, hexec, hadds⟩ := ih hrest hfirst.wf hd
    refine ⟨t, ?_, netIncrements_cons i code ▸ hfirst.trans hadds⟩
    rw [execAll, exec_of_effect (effect_of_cellArithmetic hi hd)]
    exact hexec

/-! ### What the sum modulo 256 means -/

theorem toNat_add_ofInt (c : Byte) (n : Int) : ((c + BitVec.ofInt 8 n).toNat : Int) = (c.toNat + n) % 256 := by
  rw [BitVec.toNat_add, BitVec.toNat_ofInt]
  omega

theorem ofInt_eq_zero_iff (n : Int) : BitVec.ofInt 8 n = 0 ↔ (256 : Int) ∣ n := by
  rw [← BitVec.toNat_inj, BitVec.toNat_ofInt]
  simp only [BitVec.ofNat_eq_ofNat, BitVec.toNat_ofNat]
  omega

/-- A multiple of 256 restores the whole tape: canonical contents with the same reads are the same data. -/
theorem AddsToCell.tape_eq {n : Int} {s t : State} (h : AddsToCell n s t) (hs : s.tape.wf = true)
    (hn : (256 : Int) ∣ n) : t.tape = s.tape := by
  refine Memory.eq_of_read_eq h.wf hs fun a => ?_
  rcases eq_or_ne a s.dp with rfl | ha
  · rw [h.cell, (ofInt_eq_zero_iff n).2 hn]
    exact BitVec.add_zero _
  · exact h.others a ha

/-- From a zero cell the cell is zero again exactly after a multiple of 256. -/
theorem AddsToCell.cell_eq_zero_iff {n : Int} {s t : State} (h : AddsToCell n s t) (hzero : s.tape.read s.dp = 0) :
    t.tape.read s.dp = 0 ↔ (256 : Int) ∣ n := by
  have hcell : t.tape.read s.dp = BitVec.ofInt 8 n := by
    rw [h.cell, hzero]
    exact BitVec.zero_add _
  rw [hcell, ofInt_eq_zero_iff]

/-- Every instruction but Input changes the current cell by one or not at all. -/
theorem Effect.cell_cases {s u : State} {i : Instr} (h : Effect s i u) (hi : ∀ imm, i ≠ .input imm)
    (hs : s.tape.wf = true) :
    u.tape.read s.dp = s.tape.read s.dp ∨ u.tape.read s.dp = s.tape.read s.dp + 1 ∨
      u.tape.read s.dp = s.tape.read s.dp - 1 := by
  cases h with
  | incWord imm hd => exact .inr (.inl (State.setCell_read_dp hs _))
  | decWord imm hd => exact .inr (.inr (State.setCell_read_dp hs _))
  | input imm r ch hd hr => exact absurd rfl (hi imm)
  | _ => exact .inl rfl

/-- Settles O23: the sequence by induction on its instructions, the single instruction by its effect. -/
theorem cellArithmeticIsModulo256 : Obligations.CellArithmeticIsModulo256 := by
  unfold Obligations.CellArithmeticIsModulo256
  refine ⟨fun code s hcode hs hd => ?_, fun i s t hi hs h => ?_⟩
  · obtain ⟨t, hexec, hadds⟩ := execAll_addsToCell hcode hs hd
    refine ⟨t, hexec, ?_, hadds.others, hadds.dp, hadds.tape_eq hs, hadds.cell_eq_zero_iff⟩
    rw [hadds.cell, toNat_add_ofInt]
  · rcases (exec_eq_next i s t).1 h with ⟨u, hu, rfl⟩ | ⟨⟨⟨imm, rfl⟩, -, -⟩, -⟩
    · exact hu.cell_cases hi hs
    · exact absurd rfl (hi imm)

end Sys2Proof.Machine

end

/-! Proofs of the pointer statements (42_pointer.md): AddPtr (R110), SubPtr (R111), opposite moves (R112), and that no
single move from the tape wraps back onto it (R113). -/

section

namespace Sys2Proof.Machine

/-! ### The two moves modulo 2^DP_BITS -/

theorem pointerUp_eq_mod (c : Config) (dp imm : Nat) : pointerUp c dp imm = (dp + imm) % 2 ^ c.dpBits :=
  Nat.add_mod_mod ..

theorem pointerUp_eq_emod (c : Config) (dp imm : Nat) :
    (pointerUp c dp imm : Int) = ((dp : Int) + imm) % (2 ^ c.dpBits : Nat) := by
  rw [pointerUp_eq_mod, Int.natCast_emod, Int.natCast_add]

/-- The model adds the distance to 2^DP_BITS, so as not to go below 0: that is the residue of the integer difference. -/
theorem pointerDown_eq_emod (c : Config) (dp imm : Nat) :
    (pointerDown c dp imm : Int) = ((dp : Int) - imm) % (2 ^ c.dpBits : Nat) := by
  have hlt : cellDistance c imm < 2 ^ c.dpBits := Nat.mod_lt _ (Nat.two_pow_pos _)
  calc (pointerDown c dp imm : Int)
      = ((dp - cellDistance c imm : Int) + (2 ^ c.dpBits : Nat)) % (2 ^ c.dpBits : Nat) := by
        rw [pointerDown, Int.natCast_emod, Int.natCast_add, Int.ofNat_sub hlt.le]
        congr 1
        omega
    _ = ((dp : Int) - cellDistance c imm) % (2 ^ c.dpBits : Nat) := Int.add_emod_right ..
    _ = ((dp : Int) - imm) % (2 ^ c.dpBits : Nat) := by
        rw [cellDistance, zext, Int.natCast_emod, Int.sub_emod_emod]

/-! ### Where no wrap happens, and where one does -/

theorem pointerUp_of_lt {c : Config} {dp imm : Nat} (h : dp + imm < 2 ^ c.dpBits) : pointerUp c dp imm = dp + imm := by
  rw [pointerUp_eq_mod, Nat.mod_eq_of_lt h]

theorem pointerDown_of_le {c : Config} {dp imm : Nat} (hdp : dp < 2 ^ c.dpBits) (h : imm ≤ dp) :
    pointerDown c dp imm = dp - imm := by
  have hmod := pointerDown_eq_emod c dp imm
  rw [Int.emod_eq_of_lt (by omega) (by omega)] at hmod
  omega

/-- Below cell 0 the pointer wraps once (R111). -/
theorem pointerDown_of_lt {c : Config} {dp imm : Nat} (h : dp < imm) (himm : imm ≤ 2 ^ c.dpBits) :
    pointerDown c dp imm = 2 ^ c.dpBits - (imm - dp) := by
  have hmod := pointerDown_eq_emod c dp imm
  rw [Int.emod_eq_add_self_emod, Int.emod_eq_of_lt (by omega) (by omega)] at hmod
  omega

/-! ### Opposite moves -/

theorem pointerDown_pointerUp {c : Config} {dp : Nat} (hdp : dp < 2 ^ c.dpBits) (n : Nat) :
    pointerDown c (pointerUp c dp n) n = dp := by
  have hmod := pointerDown_eq_emod c (pointerUp c dp n) n
  rw [pointerUp_eq_emod, Int.emod_sub_emod, add_sub_cancel_right, ← Int.natCast_emod, Nat.mod_eq_of_lt hdp] at hmod
  exact Int.ofNat.inj hmod

theorem pointerUp_pointerDown {c : Config} {dp : Nat} (hdp : dp < 2 ^ c.dpBits) (n : Nat) :
    pointerUp c (pointerDown c dp n) n = dp := by
  have hmod := pointerUp_eq_emod c (pointerDown c dp n) n
  rw [pointerDown_eq_emod, Int.emod_add_emod, sub_add_cancel, ← Int.natCast_emod, Nat.mod_eq_of_lt hdp] at hmod
  exact Int.ofNat.inj hmod

/-! ### What the two instructions do -/

theorem exec_addPtr (imm : Nat) (s : State) : exec (.addPtr imm) s =
    .next { s with dp := pointerUp s.config s.dp imm, ip := s.ip + 1, stepCount := s.stepCount + 1 } :=
  exec_of_effect (.addPtr imm)

theorem exec_subPtr (imm : Nat) (s : State) : exec (.subPtr imm) s =
    .next { s with dp := pointerDown s.config s.dp imm, ip := s.ip + 1, stepCount := s.stepCount + 1 } :=
  exec_of_effect (.subPtr imm)

theorem dp_of_exec_addPtr {imm : Nat} {s t : State} (h : exec (.addPtr imm) s = .next t) :
    t.dp = pointerUp s.config s.dp imm := by
  cases (exec_addPtr imm s).symm.trans h
  rfl

theorem dp_of_exec_subPtr {imm : Nat} {s t : State} (h : exec (.subPtr imm) s = .next t) :
    t.dp = pointerDown s.config s.dp imm := by
  cases (exec_subPtr imm s).symm.trans h
  rfl

/-! ### A legal configuration leaves room for one move -/

/-- R15 keeps TAPE_SIZE + IMM_CAP within 2^DP_BITS, so a move up from the tape does not wrap. -/
theorem pointerUp_of_legalConfig {c : Config} {progLen dp imm : Nat} (hl : LegalConfig c progLen)
    (hdp : dp < c.tapeSize) (himm : imm ≤ c.immCap) : pointerUp c dp imm = dp + imm := by
  obtain ⟨-, -, -, -, hroom⟩ := hl
  exact pointerUp_of_lt (by omega)

/-- A move below cell 0 wraps to a pointer that is still off the tape (R113). -/
theorem pointerDown_of_legalConfig {c : Config} {progLen dp imm : Nat} (hl : LegalConfig c progLen) (hdp : dp < imm)
    (himm : imm ≤ c.immCap) :
    pointerDown c dp imm = 2 ^ c.dpBits - (imm - dp) ∧ c.tapeSize ≤ pointerDown c dp imm := by
  obtain ⟨-, -, -, -, hroom⟩ := hl
  have hwrap := pointerDown_of_lt hdp (show imm ≤ 2 ^ c.dpBits by omega)
  exact ⟨hwrap, by omega⟩

/-! ### The halt at the next guard -/

theorem State.classify_eq_fault_iff (s : State) :
    s.classify = .fault ↔ s.config.boundsCheck = true ∧ s.config.tapeSize ≤ s.dp := by
  unfold State.classify
  split
  · simp_all
  · split <;> simp_all

/-- The guard's third term is false where class Fault is due (R91, R142). -/
theorem State.halted_of_boundsCheck {s : State} (hcheck : s.config.boundsCheck = true)
    (hoff : s.config.tapeSize ≤ s.dp) : s.halted = true := by
  refine State.halted_of_guard ?_
  rw [← Bool.not_eq_true]
  intro hg
  obtain ⟨-, -, hbounds⟩ := (State.guard_iff s).1 hg
  exact Nat.not_lt.2 hoff ((State.boundsHold_iff s).1 hbounds hcheck)

/-- Without a halt on record, class Fault is a pointer off the tape under bounds checking (R141, R142). -/
theorem State.exitClass_eq_fault_iff {s : State} (hrec : s.haltedAs = none) :
    s.exitClass = some .fault ↔ s.config.boundsCheck = true ∧ s.config.tapeSize ≤ s.dp := by
  have hclass : s.haltClass = s.classify := by rw [State.haltClass, hrec]
  rw [State.exitClass_eq_some, hclass, State.classify_eq_fault_iff]
  exact and_iff_right_of_imp fun ⟨hcheck, hoff⟩ => State.halted_of_boundsCheck hcheck hoff

theorem exec_of_step {s t : State} {i : Instr} (hi : s.current = some i) (h : step s = .next t) : exec i s = .next t :=
  (step_of_current (State.legal_of_current ((step_eq_next s t).1 h).1 hi) hi).symm.trans h

/-- A pointer move that leaves the tape under bounds checking has executed entirely, and the run has ended with class
Fault (R110, R111, R141). -/
theorem exitClass_of_pointerMove_offTape {s t : State} {i : Instr} (hmove : i.opc = 2 ∨ i.opc = 3)
    (hcheck : s.config.boundsCheck = true) (hi : s.current = some i) (h : step s = .next t)
    (hoff : s.config.tapeSize ≤ t.dp) : t.exitClass = some .fault ∧ t.ip = s.ip + 1 := by
  obtain ⟨-, ⟨-, hconf⟩, -, hrec, hip⟩ := (pointerMoveFrame i s t (exec_of_step hi h)).1 hmove
  refine ⟨(State.exitClass_eq_fault_iff (hrec.trans (State.of_current hi).1)).2 ?_, hip⟩
  rw [hconf]
  exact ⟨hcheck, hoff⟩

/-! ### The source symbol and the translated immediate -/

/-- A run of one byte without no-op bytes between: the case of R74 that R110 and R111 name. -/
theorem pass1_replicate {immCap count : Nat} (pos : Nat) {b : Byte} {s : Symbol} {rest : List Byte}
    (hs : s.folds = true) (hb : symbolOf b = some s) (hcap : count + 1 ≤ immCap)
    (hrest : rest = [] ∨ ∃ b' rest' other, rest = b' :: rest' ∧ symbolOf b' = some other ∧ other ≠ s) :
    pass1 immCap pos 0 (b :: (List.replicate count b ++ rest)) =
      (pass1 immCap (pos + 1 + count) 0 rest).map (s.instr (count + 1) :: ·) := by
  obtain ⟨-, -, hfold⟩ := pointerMoveRunFoldsIntoOneInstruction
  have hrun : ∀ b' ∈ List.replicate count b, symbolOf b' = none ∨ symbolOf b' = some s := fun b' hb' =>
    .inr ((List.eq_of_mem_replicate hb').symm ▸ hb)
  have hcount : count + 1 = (b :: List.replicate count b).countP (fun b => symbolOf b == some s) := by
    simp [List.countP_replicate, hb]
  have h := (hfold immCap pos s b (List.replicate count b) rest (count + 1) hs hb hrun hrest hcount).1 hcap
  rwa [List.length_replicate] at h

theorem translateSource_pointerMove_imm {immBits : Nat} {src : List Byte} {code : List Instr}
    (h : translateSource immBits src = .ok code) {i : Instr} (hi : i ∈ code) (hmove : i.isPointerMove = true) :
    1 ≤ i.imm ∧ i.imm ≤ immCapOf immBits := by
  obtain ⟨hpos, -⟩ := translatedProgramsAreFolded immBits src code h
  obtain ⟨-, hwf⟩ := translatedProgramsAreWellFormed immBits src code h
  exact ⟨hpos i hi hmove, of_decide_eq_true (hwf i hi)⟩

/-! ### The statements -/

/-- Settles O25: the sum modulo 2^DP_BITS, which in a legal configuration does not wrap from the tape. -/
theorem addPtrMovesThePointerUp : Obligations.AddPtrMovesThePointerUp := by
  unfold Obligations.AddPtrMovesThePointerUp
  refine ⟨fun immBits w h => decode_of_mod_eq h immBits, fun imm => encode_eq _,
    fun immCap pos count rest hcap hrest => pass1_replicate pos (s := .right) rfl rfl hcap hrest,
    fun immBits src code imm h hi => translateSource_pointerMove_imm h hi rfl, fun imm s => ?_,
    fun imm s t hcheck hi h hoff => exitClass_of_pointerMove_offTape (.inl rfl) hcheck hi h hoff,
    fun s t hdp h => (dp_of_exec_addPtr h).trans (pointerUp_of_lt hdp),
    fun imm s t hl hdp himm h => (dp_of_exec_addPtr h).trans (pointerUp_of_legalConfig hl hdp himm)⟩
  rw [exec_addPtr, pointerUp_eq_mod]

/-- Settles O26: the residue of the difference, which below cell 0 wraps once, past the tape. -/
theorem subPtrMovesThePointerDown : Obligations.SubPtrMovesThePointerDown := by
  unfold Obligations.SubPtrMovesThePointerDown
  refine ⟨fun immBits w h => decode_of_mod_eq h immBits, fun imm => encode_eq _,
    fun immCap pos count rest hcap hrest => pass1_replicate pos (s := .left) rfl rfl hcap hrest,
    fun immBits src code imm h hi => translateSource_pointerMove_imm h hi rfl,
    fun imm s => ⟨_, exec_subPtr imm s, pointerDown_eq_emod .., rfl⟩,
    fun imm s t hcheck hi h hoff => exitClass_of_pointerMove_offTape (.inr rfl) hcheck hi h hoff,
    fun imm s t hdp himm h => (dp_of_exec_subPtr h).trans (pointerDown_of_le hdp himm),
    fun imm s t hl hdp himm h => ?_⟩
  rw [dp_of_exec_subPtr h]
  exact pointerDown_of_legalConfig hl hdp himm

/-- Settles O27: each move undoes the other modulo 2^DP_BITS. -/
theorem oppositePointerMovesCancel : Obligations.OppositePointerMovesCancel := by
  unfold Obligations.OppositePointerMovesCancel
  intro n s hdp
  simp only [execAll, exec_addPtr, exec_subPtr]
  exact ⟨⟨_, rfl, pointerDown_pointerUp hdp n⟩, ⟨_, rfl, pointerUp_pointerDown hdp n⟩⟩

/-- Settles O28: up, nothing wraps; down, the pointer wraps exactly where the difference is negative, and lands off the
tape. -/
theorem everyOutOfBoundsMoveIsDetected : Obligations.EveryOutOfBoundsMoveIsDetected := by
  unfold Obligations.EveryOutOfBoundsMoveIsDetected
  intro n s t hl hdp hn
  refine ⟨fun h => ?_, fun h => ?_⟩
  · rw [dp_of_exec_addPtr h, pointerUp_of_legalConfig hl hdp hn]
    omega
  · rw [dp_of_exec_subPtr h]
    rcases Nat.lt_or_ge s.dp n with hlt | hle
    · obtain ⟨-, hoff⟩ := pointerDown_of_legalConfig hl hlt hn
      omega
    · obtain ⟨-, -, -, -, hroom⟩ := hl
      rw [pointerDown_of_le (by omega) hle]
      omega

end Sys2Proof.Machine

end

/-! Proofs of the statements on the channels (43_io.md): Input, answered (R120), held (R121) and after exhaustion
(R122), Output (R123), and what the sink writes (R124). -/

section

namespace Sys2Proof.Machine

/-! ### What an answer stores -/

theorem State.receive_exhausted_noWrite {s : State} (h : s.config.eofPolicy = .noWrite) : s.receive .exhausted = s := by
  simp only [State.receive, h]

theorem State.receive_exhausted_sentinel {s : State} {v : Byte} (h : s.config.eofPolicy = .sentinel v) :
    s.receive .exhausted = s.setCell v := by
  simp only [State.receive, h]

theorem State.receive_eq_tape (s : State) (r : InputAnswer) : s.receive r = { s with tape := (s.receive r).tape } := by
  rcases s.receive_eq r with h | ⟨v, h⟩
  · rw [h]
  · rw [h]
    rfl

/-- What is stored does not depend on the channel that the request leaves. -/
theorem State.answered_receive_tape (s : State) (ch : InputChannel) (r : InputAnswer) :
    ((s.answered ch).receive r).tape = (s.receive r).tape := by
  cases r with
  | value v => rfl
  | exhausted =>
    simp only [State.receive, State.answered_config]
    cases s.config.eofPolicy <;> rfl

/-! ### An Input whose request is answered -/

/-- An answered Input completes: the answer acts on the current cell, the channel is what the request left, and the
request, `ip` and `step_count` are the only other fields that change (R120). -/
theorem exec_input_of_request {s : State} {r : InputAnswer} {ch : InputChannel} (imm : Nat)
    (hd : s.dp < s.config.tapeSize) (hr : s.input.request = some (r, ch)) :
    ∃ t, exec (.input imm) s = .next t ∧ SameOtherCells s t ∧ t.tape = (s.receive r).tape ∧
      t = { s with
        tape := t.tape, input := ch, inputRequest := false, ip := s.ip + 1, stepCount := s.stepCount + 1 } := by
  have he : Effect s (.input imm) ((s.answered ch).receive r) := .input imm r ch hd hr
  exact ⟨_, exec_of_effect he, he.sameOtherCells, s.answered_receive_tape ch r,
    congrArg State.advance ((s.answered ch).receive_eq_tape r)⟩

/-- Settles O30: a pending value is stored, and on exhaustion EOF_POLICY names what is. -/
theorem inputStoresTheAnswer : Obligations.InputStoresTheAnswer := by
  unfold Obligations.InputStoresTheAnswer
  refine ⟨fun immBits w h => decode_of_mod_eq h immBits, rfl,
    fun immCap pos rest => pass1_single immCap pos (s := .comma) rfl rfl rest,
    fun imm s hs hd => ⟨fun v rest hp => ?_, fun hp hex => ?_⟩,
    fun imm => ⟨faultsOffTheTape_of_accessesTape rfl, neverFaultsWhenChecked _⟩⟩
  · have hr : s.input.request = some (.value v, { s.input with pending := rest }) :=
      (InputChannel.request_eq_value ..).2 ⟨rest, hp, rfl⟩
    obtain ⟨t, hexec, hframe, htape, ht⟩ := exec_input_of_request imm hd hr
    exact ⟨t, hexec, htape ▸ State.setCell_read_dp hs v, hframe, ht⟩
  · have hr : s.input.request = some (.exhausted, s.input) := (InputChannel.request_eq_exhausted ..).2 ⟨hp, hex, rfl⟩
    obtain ⟨t, hexec, hframe, htape, ht⟩ := exec_input_of_request imm hd hr
    refine ⟨t, hexec, hframe, fun hpol => ?_, fun v hpol => ?_, ht⟩
    · rw [htape, State.receive_exhausted_noWrite hpol]
    · rw [htape, State.receive_exhausted_sentinel hpol]
      exact State.setCell_read_dp hs v

/-! ### An Input whose request is not answered -/

theorem InputChannel.request_eq_none_iff_eq (ch : InputChannel) :
    ch.request = none ↔ ch = { pending := [], exhausted := false } := by
  rw [InputChannel.request_eq_none]
  cases ch
  simp

theorem exec_of_holds {s : State} {i : Instr} (h : Holds s i) : exec i s = .next { s with inputRequest := true } :=
  (exec_eq_next i s _).2 (.inr ⟨h, rfl⟩)

/-- Only the hold of an Input is an outcome named a hold: an effect would have left no request outstanding (R18,
R121). -/
theorem StepCase.holds_current {s : State} {o : Result} (hs : s.RequestWf) (h : StepCase s o .holds) :
    ∃ i, s.current = some i ∧ Holds s i := by
  cases h with
  | holds i t hm hc he hr =>
    rcases (exec_eq_next ..).1 he with ⟨u, hu, rfl⟩ | ⟨hhold, -⟩
    · simp [hu.inputRequest_false hs hc] at hr
    · exact ⟨i, hc, hhold⟩

/-- While no answer has come, the offered value is the only one pending. -/
theorem State.offerInput_of_unanswered {s : State} (h : s.input = { pending := [], exhausted := false }) (v : Byte) :
    s.offerInput v = { s with input := { pending := [v], exhausted := false } } := by
  simp [State.offerInput, h]

theorem State.endInput_of_unanswered {s : State} (h : s.input = { pending := [], exhausted := false }) :
    s.endInput = { s with input := { pending := [], exhausted := true } } := by
  rw [State.endInput, h]

section

variable {imm : Nat} {s : State} (hl : LegalConfig s.config s.progLen) (hi : s.current = some (.input imm))
  (hd : s.dp < s.config.tapeSize)
include hl hi hd

theorem step_input_of_request {r : InputAnswer} {ch : InputChannel} (hr : s.input.request = some (r, ch)) :
    ∃ t, step s = .next t ∧ t.stepCount = s.stepCount + 1 ∧ t.ip = s.ip + 1 ∧ t.inputRequest = false := by
  obtain ⟨t, hexec, -, -, ht⟩ := exec_input_of_request imm hd hr
  refine ⟨t, (step_of_current hl hi).trans hexec, ?_⟩
  rw [ht]
  exact ⟨rfl, rfl, rfl⟩

theorem step_input_of_no_answer (hnone : s.input.request = none) : step s = .next { s with inputRequest := true } :=
  (step_of_current hl hi).trans (exec_of_holds ⟨⟨imm, rfl⟩, hd, hnone⟩)

end

/-- Settles O31: the hold is its own next state, and an answer makes the request one that is answered. -/
theorem inputHoldsUntilAnswered : Obligations.InputHoldsUntilAnswered := by
  unfold Obligations.InputHoldsUntilAnswered
  refine ⟨?_, fun s hs hk => ?_⟩
  · rintro imm s _ hl hi hd hin rfl
    have hnone : s.input.request = none := (InputChannel.request_eq_none_iff_eq _).2 hin
    refine ⟨State.halted_of_current hi, fun n => ?_, fun v => ?_, ?_⟩
    · have hself : step { s with inputRequest := true } = .next { s with inputRequest := true } :=
        step_input_of_no_answer hl hi hd hnone
      exact (runs_succ n s _).2 ⟨_, step_input_of_no_answer hl hi hd hnone, runs_of_step_self hself n⟩
    · rw [State.offerInput_of_unanswered (s := { s with inputRequest := true }) hin v]
      exact step_input_of_request hl hi hd (r := .value v) rfl
    · rw [State.endInput_of_unanswered (s := { s with inputRequest := true }) hin]
      exact step_input_of_request hl hi hd (r := .exhausted) rfl
  · obtain ⟨i, hi, ⟨imm, rfl⟩, -, hnone⟩ := (hk ▸ s.stepCase).holds_current hs
    exact ⟨⟨imm, hi⟩, (InputChannel.request_eq_none_iff_eq _).1 hnone⟩

/-! ### Exhaustion -/

theorem InputChannel.request_of_exhausted {ch : InputChannel} (h : ch = { pending := [], exhausted := true }) :
    ch.request = some (.exhausted, ch) := by
  rw [h]
  rfl

/-- The request of an exhausted channel leaves it as it is, and no other instruction uses the input. -/
theorem Effect.input_of_exhausted {s u : State} {i : Instr} (h : Effect s i u)
    (hin : s.input = { pending := [], exhausted := true }) : u.input = s.input := by
  cases h with
  | input imm r ch hd hr =>
    cases (InputChannel.request_of_exhausted hin).symm.trans hr
    simp
  | _ => rfl

theorem step_input_eq_of_exhausted {s t : State} (hin : s.input = { pending := [], exhausted := true })
    (h : step s = .next t) : t.input = s.input := by
  rcases step_next_cases h with rfl | ⟨i, u, -, hu, rfl⟩ | ⟨imm, -, -, rfl⟩
  · rfl
  · exact hu.input_of_exhausted hin
  · rfl

/-- Settles O32: every step keeps the exhausted channel, and its request is answered with exhaustion. -/
theorem exhaustionIsPermanentAndNoFault : Obligations.ExhaustionIsPermanentAndNoFault := by
  unfold Obligations.ExhaustionIsPermanentAndNoFault
  refine ⟨fun n s t hin h => ?_, fun imm s hl hi hd hin => ?_⟩
  · refine runs_invariant (P := fun u => u.input = s.input) (fun u v hu hstep => ?_) rfl h
    exact (step_input_eq_of_exhausted (hu.trans hin) hstep).trans hu
  · obtain ⟨t, hstep, hcount, hip, hreq⟩ :=
      step_input_of_request hl hi hd (InputChannel.request_of_exhausted hin)
    exact ⟨t, hstep, hip, hcount, hreq⟩

/-! ### The frames -/

/-- A request leaves the pending values as they are or takes the oldest (R120, R122). -/
theorem InputChannel.pending_cases_of_request {ch ch' : InputChannel} {r : InputAnswer}
    (h : ch.request = some (r, ch')) : ch'.pending = ch.pending ∨ ∃ v, ch.pending = v :: ch'.pending := by
  cases r with
  | value v =>
    obtain ⟨rest, hp, rfl⟩ := (InputChannel.request_eq_value ..).1 h
    exact .inr ⟨v, hp⟩
  | exhausted =>
    obtain ⟨-, -, rfl⟩ := (InputChannel.request_eq_exhausted ..).1 h
    exact .inl rfl

/-- Settles O33: an answered Input has consumed the oldest value or none, and one that holds only requests. -/
theorem inputFrame : Obligations.InputFrame := by
  unfold Obligations.InputFrame
  intro imm s t h
  refine ⟨(exec_next_accessesTape h rfl).2, exec_next_sameOtherCells h, ?_⟩
  rcases (exec_eq_next ..).1 h with ⟨u, hu, rfl⟩ | ⟨-, rfl⟩
  · refine ⟨hu.sameStore, ?_⟩
    cases hu with
    | input imm r ch hd hr =>
      simpa [InputChannel.request_exhausted hr] using InputChannel.pending_cases_of_request hr
  · exact ⟨⟨rfl, rfl⟩, rfl, rfl, rfl, .inl rfl⟩

/-- Settles O34: its effect is one emission. -/
theorem outputEmitsTheCurrentCell : Obligations.OutputEmitsTheCurrentCell := by
  unfold Obligations.OutputEmitsTheCurrentCell
  exact ⟨fun immBits w h => decode_of_mod_eq h immBits, rfl,
    fun immCap pos rest => pass1_single immCap pos (s := .dot) rfl rfl rest,
    fun imm s hd => exec_of_effect (.output imm hd),
    fun imm => ⟨faultsOffTheTape_of_accessesTape rfl, neverFaultsWhenChecked _⟩⟩

/-- Settles O35: an Output that answers a next state had its cell on the tape, so it has emitted and advanced. -/
theorem outputFrame : Obligations.OutputFrame := by
  unfold Obligations.OutputFrame
  intro imm s t h
  obtain ⟨hd, -⟩ := exec_next_accessesTape h rfl
  obtain rfl := Host.Outcome.next.inj ((exec_of_effect (.output imm hd)).symm.trans h)
  exact ⟨fun _ => rfl, rfl, ⟨rfl, rfl⟩, rfl, rfl, rfl⟩

/-! ### Decimal digits -/

theorem toNat_digitByte {d : Nat} (h : d < 10) : (digitByte d).toNat = 48 + d := by
  rw [digitByte, BitVec.toNat_ofNat]
  omega

/-- The number that a list of digit bytes stands for, most significant digit first. -/
def decimalValue (digits : List Byte) : Nat := digits.foldl (fun n d => 10 * n + (d.toNat - 0x30)) 0

theorem decimalValue_append (digits : List Byte) (b : Byte) :
    decimalValue (digits ++ [b]) = 10 * decimalValue digits + (b.toNat - 0x30) := by
  rw [decimalValue, List.foldl_append]
  rfl

/-- `digits` is the decimal form of `n` in R124 and D14: digit bytes only, at least one, with no leading zero. -/
structure IsDecimal (n : Nat) (digits : List Byte) : Prop where
  ne_nil : digits ≠ []
  range : ∀ d ∈ digits, 0x30 ≤ d.toNat ∧ d.toNat ≤ 0x39
  no_leading_zero : digits.head? = some 0x30 → digits = [0x30]
  value : decimalValue digits = n

theorem isDecimal_digitByte {d : Nat} (h : d < 10) : IsDecimal d [digitByte d] where
  ne_nil := List.cons_ne_nil _ _
  range := by
    simp only [List.mem_singleton, forall_eq, toNat_digitByte h]
    omega
  no_leading_zero := fun hhead => by simpa using hhead
  value := by simp [decimalValue, toNat_digitByte h]

/-- One more digit behind the form of a number that is not 0, so that no leading zero appears. -/
theorem IsDecimal.append_digitByte {n d : Nat} {digits : List Byte} (h : IsDecimal n digits) (hn : n ≠ 0)
    (hd : d < 10) : IsDecimal (10 * n + d) (digits ++ [digitByte d]) where
  ne_nil := by simp
  range := by
    simp only [List.mem_append]
    rintro b (hb | hb)
    · exact h.range b hb
    · exact (isDecimal_digitByte hd).range b hb
  no_leading_zero := fun hhead => by
    rw [List.head?_append_of_ne_nil _ h.ne_nil] at hhead
    have hvalue := h.value
    rw [h.no_leading_zero hhead] at hvalue
    exact absurd hvalue.symm hn
  value := by rw [decimalValue_append, h.value, toNat_digitByte hd, Nat.add_sub_cancel_left]

/-- By the number of digits: each one more is that of the remainder by 10, behind the form of the quotient. -/
theorem isDecimal_decimalBytes {n : Nat} (h : n < 1000) : IsDecimal n (decimalBytes n) := by
  unfold decimalBytes
  split
  · next hn => exact isDecimal_digitByte hn
  · split
    · have htens : IsDecimal (n / 10) [digitByte (n / 10)] := isDecimal_digitByte (by omega)
      have hall := htens.append_digitByte (by omega) (Nat.mod_lt n (by decide))
      rwa [Nat.div_add_mod] at hall
    · have hhundreds : IsDecimal (n / 10 / 10) [digitByte (n / 100)] := by
        rw [Nat.div_div_eq_div_mul]
        exact isDecimal_digitByte (by omega)
      have htens := hhundreds.append_digitByte (by omega) (Nat.mod_lt (n / 10) (by decide))
      rw [Nat.div_add_mod] at htens
      have hall := htens.append_digitByte (by omega) (Nat.mod_lt n (by decide))
      rwa [Nat.div_add_mod] at hall

/-! ### The sink -/

theorem render_append (b : Bool) (vs ws : List Byte) : render b (vs ++ ws) = render b vs ++ render b ws := by
  cases b with
  | true => rfl
  | false => exact List.flatMap_append

theorem render_numeric_singleton (v : Byte) : render false [v] = decimalBytes v.toNat ++ [0x20] :=
  List.flatMap_singleton ..

theorem State.runConfig_of_not_recorded {s : State} (h : s.haltedAs = none) : s.runConfig = s.config := by
  rw [State.runConfig, h]

theorem State.countLine_of_not_halted {s : State} (h : s.halted = false) : s.countLine = none := by
  rw [State.countLine, h]
  rfl

theorem Config.diagnostics_iff (c : Config) : c.diagnostics = true ↔ c.boundsCheck = true ∧ c.stepCeiling ≠ none := by
  rw [Config.diagnostics, Bool.and_eq_true, Option.isSome_iff_ne_none]

/-- A halted core has a count line exactly in the diagnostics configuration of its run (R124). -/
theorem State.countLine_of_halted {s : State} (h : s.halted = true) :
    s.countLine = if s.runConfig.boundsCheck = true ∧ s.runConfig.stepCeiling ≠ none then
      some ("instructions executed: " ++ toString s.stepCount) else none := by
  simp only [State.countLine, h, Bool.true_and, Config.diagnostics_iff]

/-- Settles O56: the numeric form of a byte is decimal, and a count line takes a halt and both diagnostics terms. -/
theorem sinkRendersEachValueInTurn : Obligations.SinkRendersEachValueInTurn := by
  unfold Obligations.SinkRendersEachValueInTurn
  refine ⟨render_append, fun _ => rfl, fun v => ?_, fun s hrec => ?_, fun s h => State.countLine_of_not_halted h,
    fun s hrec h => ?_⟩
  · have hdec : IsDecimal v.toNat (decimalBytes v.toNat) := isDecimal_decimalBytes (by omega)
    exact ⟨_, render_numeric_singleton v, hdec.ne_nil, hdec.range, hdec.no_leading_zero, hdec.value⟩
  · rw [State.rendered, State.runConfig_of_not_recorded hrec]
  · rw [State.countLine_of_halted h, State.runConfig_of_not_recorded hrec]
    exact ⟨fun hdiag => if_pos hdiag, fun hdiag => if_neg hdiag⟩

end Sys2Proof.Machine

end

/-! Proofs of the control statements (44_control.md): CondLeft (R130), CondRight (R131), their frame, and where a taken
bracket lands in a well-formed Program (R132). -/

section

namespace Sys2Proof.Machine

/-! ### What a bracket does -/

/-- A bracket writes `ip` and nothing else (R130, R131). -/
theorem Effect.eq_of_bracket {s u : State} {i : Instr} (h : Effect s i u) (hi : i.opc = 4 ∨ i.opc = 5) :
    u = { s with ip := u.ip } := by
  cases h with
  | skip imm hd hz hl => rfl
  | enter imm hd hz => rfl
  | back imm hd hz hl => rfl
  | leave imm hd hz => rfl
  | _ => simp [Instr.opc] at hi

/-- A bracket that answers a next state has written `ip` and advanced, for it never holds (R94, R130, R131). -/
theorem eq_of_exec_bracket {s t : State} {i : Instr} (hi : i.opc = 4 ∨ i.opc = 5) (h : exec i s = .next t) :
    t = { s with ip := ipBeforeAdvance i s + 1, stepCount := s.stepCount + 1 } := by
  rcases (exec_eq_next i s t).1 h with ⟨u, hu, rfl⟩ | ⟨⟨⟨imm, rfl⟩, -, -⟩, -⟩
  · rw [hu.eq_of_bracket hi, hu.ip_eq]
    rfl
  · simp [Instr.opc] at hi

theorem ip_of_step_bracket {s t : State} {i : Instr} (hi : i.opc = 4 ∨ i.opc = 5) (hcur : s.current = some i)
    (h : step s = .next t) : t.ip = ipBeforeAdvance i s + 1 :=
  congrArg State.ip (eq_of_exec_bracket hi (exec_of_step hcur h))

theorem ipBeforeAdvance_condLeft_of_zero {s : State} (hz : s.tape.read s.dp = 0) (d : Nat) :
    ipBeforeAdvance (.condLeft d) s = s.ip + d := if_pos hz

theorem ipBeforeAdvance_condRight_of_ne_zero {s : State} (hz : s.tape.read s.dp ≠ 0) (d : Nat) :
    ipBeforeAdvance (.condRight d) s = s.ip - d := if_neg hz

/-- Settles O39: all that a bracket leaves changed is `ip` and `step_count`. -/
theorem bracketFrame : Obligations.BracketFrame := by
  unfold Obligations.BracketFrame
  intro i s t hi h
  rw [eq_of_exec_bracket hi h]
  exact ⟨fun _ => rfl, rfl, ⟨rfl, rfl⟩, ⟨rfl, rfl, rfl⟩, rfl⟩

/-! ### The partner in a well-formed Program -/

/-- R70 (a) for the CondLeft a launched core executes. -/
theorem State.Launched.leftMatched {s : State} (hs : s.Launched) {d : Nat} (hi : s.current = some (.condLeft d)) :
    LeftMatched (codeOf s.config s.program) s.ip d := by
  obtain ⟨-, -, hcode⟩ := hs
  obtain ⟨-, hget⟩ := codeOf_of_current hi
  exact wellFormedProgram_left hcode hget

/-- R70 (b) for the CondRight a launched core executes. -/
theorem State.Launched.rightMatched {s : State} (hs : s.Launched) {d : Nat} (hi : s.current = some (.condRight d)) :
    RightMatched (codeOf s.config s.program) s.ip d := by
  obtain ⟨-, -, hcode⟩ := hs
  obtain ⟨-, hget⟩ := codeOf_of_current hi
  exact wellFormedProgram_right hcode hget

/-- Every executed instruction is a decoded word, so its immediate is at most IMM_CAP (R63). -/
theorem State.imm_le_of_current {s : State} {i : Instr} (hi : s.current = some i) : i.imm ≤ s.config.immCap := by
  obtain ⟨-, w, -, rfl⟩ := (State.current_eq_some ..).1 hi
  exact of_decide_eq_true (decode_wf _ w)

/-- Whatever the instruction, a step keeps `ip` in `0 .. PROG_LEN`: the slot it advances from exists (R132). -/
theorem step_ip_le {s t : State} (h : step s = .next t) (hip : s.ip ≤ s.progLen) : t.ip ≤ t.progLen := by
  rcases step_next_cases h with rfl | ⟨i, u, hi, hu, rfl⟩ | ⟨imm, -, -, rfl⟩
  · exact hip
  · obtain ⟨hlt, -, -⟩ := (State.guard_iff s).1 (State.of_current hi).2
    have hlen : u.progLen = s.progLen := congrArg List.length hu.sameStore.1
    rw [State.advance_ip, State.advance_progLen, hlen]
    exact hu.ip_lt hlt
  · exact hip

/-- Settles O40: a taken bracket sets `ip` to its partner of R70, and the advance goes one past it. -/
theorem takenBracketLandsOnePastItsPartner : Obligations.TakenBracketLandsOnePastItsPartner := by
  unfold Obligations.TakenBracketLandsOnePastItsPartner
  intro s t hs h hip
  refine ⟨step_ip_le h hip, fun d hi hz => ?_, fun d hi hz => ?_⟩
  · obtain ⟨-, -, hpartner, hmatch⟩ := hs.leftMatched hi
    have hland := ip_of_step_bracket (.inl rfl) hi h
    rw [ipBeforeAdvance_condLeft_of_zero hz] at hland
    exact ⟨s.ip + d, hland, rfl, hmatch, hpartner⟩
  · obtain ⟨-, hd, hpartner, hmatch⟩ := hs.rightMatched hi
    have hland := ip_of_step_bracket (.inr rfl) hi h
    rw [ipBeforeAdvance_condRight_of_ne_zero hz] at hland
    exact ⟨s.ip - d, hland, Nat.sub_add_cancel hd, hmatch, hpartner⟩

/-! ### The immediates that pass 2 writes -/

/-- A CondLeft and its match get their distance, which is within IMM_CAP and not 0 (R77, R79). -/
theorem pass2_pair {immCap : Nat} {code resolved : List Instr} (h : pass2 immCap code = .ok resolved) {i : Nat}
    (hi : kindAt code i .opens = true) :
    ∃ j d, matchOf code i = some j ∧ 1 ≤ d ∧ d ≤ immCap ∧
      resolved[i]? = some (.condLeft d) ∧ resolved[j]? = some (.condRight d) := by
  obtain ⟨-, -, hpairs, -⟩ := bracketDistancesAreSymmetric immCap code resolved h
  obtain ⟨j, hj, hcap, hl, hr⟩ := hpairs i hi
  have hij := (matchOf_spec hj).1
  exact ⟨j, j - i, hj, by omega, hcap, hl, hr⟩

theorem pass2_condLeft_distance {immCap : Nat} {code resolved : List Instr} (h : pass2 immCap code = .ok resolved)
    {k : Nat} (hk : kindAt code k .opens = true) :
    ∃ d, 1 ≤ d ∧ d ≤ immCap ∧ resolved[k]? = some (.condLeft d) := by
  obtain ⟨_, d, -, hpos, hcap, hl, -⟩ := pass2_pair h hk
  exact ⟨d, hpos, hcap, hl⟩

/-- Every CondRight of a resolved Program is the match of a CondLeft (R80), so it got that one's distance. -/
theorem pass2_condRight_distance {immCap : Nat} {code resolved : List Instr} (h : pass2 immCap code = .ok resolved)
    {k : Nat} (hk : kindAt code k .closes = true) :
    ∃ d, 1 ≤ d ∧ d ≤ immCap ∧ resolved[k]? = some (.condRight d) := by
  obtain ⟨-, -, -, hright⟩ := bracketDistancesAreSymmetric immCap code resolved h
  obtain ⟨i, hi, hik⟩ := hright k hk
  obtain ⟨j, d, hij, hpos, hcap, -, hr⟩ := pass2_pair h hi
  obtain rfl : k = j := Option.some.inj (hik.symm.trans hij)
  exact ⟨d, hpos, hcap, hr⟩

/-! ### The end of the Program -/

/-- At PROG_LEN the guard is false, and with the pointer on the tape the class is Clean (R91, R142, R143). -/
theorem State.exitClass_clean_of_ip_eq {s : State} (hrec : s.haltedAs = none) (hd : s.dp < s.config.tapeSize)
    (hip : s.ip = s.progLen) : s.exitClass = some .clean := by
  have hg : s.guard = false := by
    rw [← Bool.not_eq_true]
    intro hg
    exact Nat.ne_of_lt ((State.guard_iff s).1 hg).1 hip
  refine (State.exitClass_eq_some ..).2 ⟨State.halted_of_guard hg, ?_⟩
  simp [State.haltClass, hrec, State.classify, Nat.not_le.2 hd, hip]

/-- A bracket whose `ip` before the advance is the last slot of the Program ends the run Clean (R94, R142). -/
theorem step_ends_clean {s : State} {i : Instr} {k : Nat} (hs : s.Launched) (hi : s.current = some i)
    (hd : s.dp < s.config.tapeSize) (hu : Effect s i { s with ip := k }) (hend : k + 1 = s.progLen) :
    ∃ t, step s = .next t ∧ t.ip = t.progLen ∧ t.exitClass = some .clean :=
  ⟨_, (step_of_current hs.1 hi).trans (exec_of_effect hu), hend,
    State.exitClass_clean_of_ip_eq (State.of_current hi).1 hd hend⟩

/-! ### The statements -/

/-- Settles O37: the skip and the entry are its two effects, and R70 bounds the immediate and names the partner. -/
theorem condLeftSkipsOnZero : Obligations.CondLeftSkipsOnZero := by
  unfold Obligations.CondLeftSkipsOnZero
  refine ⟨fun immBits w h => decode_of_mod_eq h immBits, fun imm => encode_eq _,
    fun immCap pos rest => pass1_single immCap pos (s := .openBracket) rfl rfl rest,
    fun immCap k code resolved h hk => pass2_condLeft_distance h hk, fun imm s hs hi => ?_,
    fun imm s hd hz hl => exec_of_effect (.skip imm hd hz hl), fun imm s hd hz => exec_of_effect (.enter imm hd hz),
    fun imm => ⟨faultsOffTheTape_of_accessesTape rfl, neverFaultsWhenChecked _⟩,
    fun imm s hs hi hd hz hend => step_ends_clean hs hi hd (.skip imm hd hz (Nat.lt_of_succ_le hend.le)) hend⟩
  obtain ⟨hpos, hland, hpartner, -⟩ := hs.leftMatched hi
  obtain ⟨⟨-, -, -, hfits, -⟩, -⟩ := hs
  rw [codeOf_length] at hland
  exact ⟨hpos, State.imm_le_of_current hi, hland, Nat.lt_of_le_of_lt hland hfits, hpartner⟩

/-- Settles O38: the repetition and the exit are its two effects, and R70 bounds the immediate and names the partner. -/
theorem condRightRepeatsOnNonZero : Obligations.CondRightRepeatsOnNonZero := by
  unfold Obligations.CondRightRepeatsOnNonZero
  refine ⟨fun immBits w h => decode_of_mod_eq h immBits, fun imm => encode_eq _,
    fun immCap pos rest => pass1_single immCap pos (s := .closeBracket) rfl rfl rest,
    fun immCap k code resolved h hk => pass2_condRight_distance h hk, fun imm s hs hi => ?_,
    fun imm s hd hz hl => exec_of_effect (.back imm hd hz hl), fun imm s hd hz => exec_of_effect (.leave imm hd hz),
    fun imm => ⟨faultsOffTheTape_of_accessesTape rfl, neverFaultsWhenChecked _⟩, fun s t hs hi hz h => ?_,
    fun imm s hs hi hd hz hend => step_ends_clean hs hi hd (.leave imm hd hz) hend⟩
  · obtain ⟨hpos, hle, hpartner, -⟩ := hs.rightMatched hi
    exact ⟨hpos, Nat.le_min.2 ⟨hle, State.imm_le_of_current hi⟩, hpartner⟩
  · obtain ⟨-, hle, -, -⟩ := hs.rightMatched hi
    rw [ip_of_step_bracket (.inr rfl) hi h, ipBeforeAdvance_condRight_of_ne_zero hz, Nat.sub_add_cancel hle]

end Sys2Proof.Machine

end

/-! Proofs of the exception statements (60_exceptions.md): the pointer move that leaves the tape (R141, R144), the exit
classes and their priority (R142, R143, R149), and the diagnostics terms of the guard (R155). -/

section

namespace Sys2Proof

theorem Instr.isPointerMove_iff (i : Instr) : i.isPointerMove = true ↔ i.opc = 2 ∨ i.opc = 3 := by
  rw [Instr.isPointerMove, Bool.not_eq_true', Instr.accessesTape_eq_false_iff]

theorem Instr.eq_of_isPointerMove {i : Instr} (h : i.isPointerMove = true) : ∃ imm, i = .addPtr imm ∨ i = .subPtr imm := by
  cases i with
  | addPtr imm => exact ⟨imm, .inl rfl⟩
  | subPtr imm => exact ⟨imm, .inr rfl⟩
  | _ => cases h

end Sys2Proof

namespace Sys2Proof.Machine

/-! ### The move that leaves the tape -/

/-- A pointer move that answers a next state has written `dp` and advanced, for it never holds (R94, R110, R111). -/
theorem eq_of_exec_pointerMove {s t : State} {i : Instr} (hi : i.isPointerMove = true) (h : exec i s = .next t) :
    t = { s with dp := t.dp, ip := s.ip + 1, stepCount := s.stepCount + 1 } := by
  rcases (exec_eq_next i s t).1 h with ⟨u, hu, rfl⟩ | ⟨⟨⟨imm, rfl⟩, -, -⟩, -⟩
  · obtain ⟨d, rfl⟩ := hu.eq_of_pointerMove (i.isPointerMove_iff.1 hi)
    rfl
  · cases hi

/-- An instruction that answers a state off the tape is a pointer move: every other one has its cell on the tape, where the
pointer stays (R22, R52). -/
theorem isPointerMove_of_exec_offTape {s t : State} {i : Instr} (h : exec i s = .next t)
    (hoff : s.config.tapeSize ≤ t.dp) : i.isPointerMove = true := by
  rw [Instr.isPointerMove, Bool.not_eq_true', ← Bool.not_eq_true]
  intro haccess
  obtain ⟨hon, hdp⟩ := exec_next_accessesTape h haccess
  omega

/-- A step comes to a pointer off the tape by a halt there or by a pointer move (R141). -/
theorem step_offTape_cases {s t : State} (h : step s = .next t) (hoff : s.config.tapeSize ≤ t.dp) :
    t = s ∨ ∃ i, s.current = some i ∧ i.isPointerMove = true ∧
      t = { s with dp := t.dp, ip := s.ip + 1, stepCount := s.stepCount + 1 } := by
  obtain ⟨-, ⟨-, rfl⟩ | ⟨i, hi, he⟩⟩ := (step_eq_next s t).1 h
  · exact .inl rfl
  · have hmove := isPointerMove_of_exec_offTape he hoff
    exact .inr ⟨i, hi, hmove, eq_of_exec_pointerMove hmove he⟩

/-- Settles O20: a halt keeps the record, and a pointer move off the tape makes it. -/
theorem everyStepKeepsTheFaultRecord : Obligations.EveryStepKeepsTheFaultRecord := by
  unfold Obligations.EveryStepKeepsTheFaultRecord
  intro s t hs h hcheck hoff
  obtain ⟨hprog, hconf⟩ := step_sameStore h
  rw [hconf] at hoff
  rcases step_offTape_cases h hoff with rfl | ⟨i, hi, hmove, ht⟩
  · exact hs hcheck hoff
  · obtain ⟨-, hget⟩ := codeOf_of_current hi
    rw [hconf, hprog]
    exact ⟨s.ip, i, congrArg State.ip ht, hget, hmove⟩

/-! ### The exit classes -/

theorem ExitClass.eq_forced_iff (c : ExitClass) : c = .forced ↔ c ≠ .fault ∧ c ≠ .clean := by cases c <;> simp

section

variable {s : State}

theorem State.exitClass_eq_some_iff_classify (hrec : s.haltedAs = none) (hhalt : s.halted = true) (c : ExitClass) :
    s.exitClass = some c ↔ s.classify = c := by
  rw [State.exitClass_eq_some, and_iff_right hhalt, State.haltClass, hrec]

/-- Where no Fault is due, the end of the Program decides between Clean and Forced (R142, R143). -/
theorem State.classify_of_no_fault (hno : ¬ (s.config.boundsCheck = true ∧ s.config.tapeSize ≤ s.dp)) :
    s.classify = if s.ip = s.progLen then .clean else .forced :=
  if_neg (by simpa using hno)

theorem State.classify_eq_clean_iff :
    s.classify = .clean ↔ ¬ (s.config.boundsCheck = true ∧ s.config.tapeSize ≤ s.dp) ∧ s.ip = s.progLen := by
  by_cases hf : s.config.boundsCheck = true ∧ s.config.tapeSize ≤ s.dp
  · simp [hf, s.classify_eq_fault_iff.2 hf]
  · simp [hf, State.classify_of_no_fault hf]

theorem State.classify_eq_forced_iff :
    s.classify = .forced ↔ ¬ (s.config.boundsCheck = true ∧ s.config.tapeSize ≤ s.dp) ∧ s.ip ≠ s.progLen := by
  rw [ExitClass.eq_forced_iff, Ne, State.classify_eq_fault_iff, Ne, State.classify_eq_clean_iff]
  exact and_congr_right fun hno => by rw [and_iff_right hno]

/-- A halt before the end with no Fault due is the guard's second term: the ceiling is reached, and RegistersWf says that
it is not passed (R91, R142). -/
theorem State.stepCeiling_eq_of_halted (hrec : s.haltedAs = none) (hreg : s.RegistersWf) (hhalt : s.halted = true)
    (hno : ¬ (s.config.boundsCheck = true ∧ s.config.tapeSize ≤ s.dp)) (hip : s.ip < s.progLen) :
    s.config.stepCeiling = some s.stepCount := by
  have hbounds : s.boundsHold = true :=
    s.boundsHold_iff.2 fun hcheck => Nat.lt_of_not_le fun hoff => hno ⟨hcheck, hoff⟩
  have hguard : ¬ s.guard = true := by simp [(State.halted_iff_guard hrec).1 hhalt]
  have hreached : ¬ s.belowCeiling = true := fun hbelow => hguard ((State.guard_iff s).2 ⟨hip, hbelow, hbounds⟩)
  rw [State.belowCeiling_iff] at hreached
  push Not at hreached
  obtain ⟨n, hn, hle⟩ := hreached
  obtain ⟨-, -, hceil⟩ := hreg
  rw [hn, Nat.le_antisymm hle (hceil n hn)]

theorem State.faultIp_of_fault {k : Nat} (hclass : s.exitClass = some .fault) (hip : s.ip = k + 1) :
    s.faultIp = some k := by
  simp [State.faultIp, hclass, hip]

theorem State.runtimeFault_of_fault {k : Nat} (hclass : s.exitClass = some .fault) (hip : s.ip = k + 1) :
    s.runtimeFault = some (.outOfBoundsPointer k) := by
  rw [State.runtimeFault, State.faultIp_of_fault hclass hip]
  rfl

/-- `fault_ip` is valid only for class Fault (R29, R144). -/
theorem State.runtimeFault_of_ne_fault (hclass : s.exitClass ≠ some .fault) : s.runtimeFault = none := by
  have hip : s.faultIp = none := by
    unfold State.faultIp
    split <;> simp_all
  rw [State.runtimeFault, hip]
  rfl

end

/-- Settles O16: the class of a halt not on record is `classify`, and a halt before the end is at the ceiling. -/
theorem exitClassesFollowTheirPriority : Obligations.ExitClassesFollowTheirPriority := by
  unfold Obligations.ExitClassesFollowTheirPriority
  refine ⟨fun s r h => State.halted_of_recorded h, fun s hrec hreg hhalt => ⟨State.exitClass_eq_fault_iff hrec, ?_, ?_⟩⟩
  · rw [State.exitClass_eq_some_iff_classify hrec hhalt, State.classify_eq_clean_iff]
  · rw [State.exitClass_eq_some_iff_classify hrec hhalt, State.classify_eq_forced_iff]
    constructor
    · rintro ⟨hno, hne⟩
      have hip : s.ip < s.progLen := Nat.lt_of_le_of_ne hreg.1 hne
      exact ⟨hno, hip, State.stepCeiling_eq_of_halted hrec hreg hhalt hno hip⟩
    · rintro ⟨hno, hip, -⟩
      exact ⟨hno, hip.ne⟩

/-- Settles O17: class Fault is the premise of the fault record, which names the move before `ip`. -/
theorem faultIpNamesThePointerMove : Obligations.FaultIpNamesThePointerMove := by
  unfold Obligations.FaultIpNamesThePointerMove
  intro s hrec hs hclass
  obtain ⟨hcheck, hoff⟩ := (State.exitClass_eq_fault_iff hrec).1 hclass
  obtain ⟨k, i, hip, hget, hmove⟩ := hs hcheck hoff
  have hfault := State.faultIp_of_fault hclass hip
  exact ⟨k, i, hip, hfault, hfault, State.runtimeFault_of_fault hclass hip, hget, i.isPointerMove_iff.1 hmove⟩

/-! ### The next guard finds the pointer -/

theorem step_self_of_exitClass {s t : State} {c : ExitClass} (h : step s = .next t) (hl : LegalConfig s.config s.progLen)
    (hclass : t.exitClass = some c) : step t = .next t := by
  obtain ⟨hprog, hconf⟩ := step_sameStore h
  have hl' : LegalConfig t.config t.progLen := by rwa [hconf, State.progLen, hprog]
  exact step_of_halted (.inr hl') ((State.exitClass_eq_some ..).1 hclass).1

/-- Settles O18: a step off the tape is a pointer move, and class Fault is a checked pointer off the tape. -/
theorem outOfBoundsPointerIsFoundByTheNextGuard : Obligations.OutOfBoundsPointerIsFoundByTheNextGuard := by
  unfold Obligations.OutOfBoundsPointerIsFoundByTheNextGuard
  refine ⟨fun s t hcheck hon h hoff => ?_, fun s hrec => State.exitClass_eq_fault_iff hrec, fun s hrec hcheck => ?_,
    fun s t h => ?_, rfl, rfl, rfl⟩
  · rcases step_offTape_cases h hoff with rfl | ⟨i, hi, hmove, ht⟩
    · exact absurd hoff (Nat.not_le.2 hon)
    · obtain ⟨hclass, hip⟩ := exitClass_of_pointerMove_offTape (i.isPointerMove_iff.1 hmove) hcheck hi h hoff
      have hl := State.legal_of_current ((step_eq_next s t).1 h).1 hi
      obtain ⟨imm, himm⟩ := Instr.eq_of_isPointerMove hmove
      have htape : t.tape = s.tape := by rw [ht]
      refine ⟨⟨imm, ?_⟩, hip, congrArg State.stepCount ht, htape, hclass,
        State.runtimeFault_of_fault hclass hip, step_self_of_exitClass h hl hclass⟩
      simpa [hi] using himm
  · have hne : s.exitClass ≠ some .fault := by simp [State.exitClass_eq_fault_iff hrec, hcheck]
    exact ⟨hne, State.runtimeFault_of_ne_fault hne⟩
  · obtain ⟨⟨⟨-, hsize, -⟩, -⟩, rfl⟩ := (State.resetRun_eq_next s t).1 h
    exact hsize

/-! ### The diagnostics terms of the guard -/

/-- The configuration with neither bounds checking nor a step ceiling (R10, R155). -/
def Config.dropDiagnostics (c : Config) : Config := { c with boundsCheck := false, stepCeiling := none }

/-- No instruction reads the two values: only the guard does (R91). -/
theorem keepsExecParams_dropDiagnostics : KeepsExecParams Config.dropDiagnostics :=
  ⟨fun _ => rfl, fun _ => rfl, fun _ => rfl⟩

theorem exec_next_withoutDiagnostics {s t : State} {i : Instr} (h : exec i s = .next t) :
    exec i s.withoutDiagnostics = .next t.withoutDiagnostics :=
  exec_next_mapConfig keepsExecParams_dropDiagnostics h

theorem State.Meaningful.withoutDiagnostics {s : State} (h : s.Meaningful) : s.withoutDiagnostics.Meaningful := by
  rcases h with hrec | ⟨himm, hsize, -, hfits, hroom⟩
  · exact .inl hrec
  · exact .inr ⟨himm, hsize, nofun, hfits, hroom⟩

section

variable {s : State} (hd : s.dp < s.config.tapeSize) (hbelow : s.belowCeiling = true)
include hd hbelow

/-- Where both diagnostics terms hold, the guard with them and the guard without them agree (R155). -/
theorem State.withoutDiagnostics_running : s.withoutDiagnostics.running = s.running := by
  have hbounds : s.boundsHold = true := s.boundsHold_iff.2 fun _ => hd
  have hbounds' : s.withoutDiagnostics.boundsHold = true := (State.boundsHold_iff _).2 nofun
  have hbelow' : s.withoutDiagnostics.belowCeiling = true := rfl
  simp only [State.running, State.guard, hbelow, hbounds, hbelow', hbounds']
  rfl

theorem State.withoutDiagnostics_current : s.withoutDiagnostics.current = s.current := by
  rw [State.current, State.withoutDiagnostics_running hd hbelow]
  rfl

theorem step_withoutDiagnostics {t : State} (h : step s = .next t) :
    step s.withoutDiagnostics = .next t.withoutDiagnostics := by
  obtain ⟨hm, hcases⟩ := (step_eq_next s t).1 h
  refine (step_eq_next ..).2 ⟨hm.withoutDiagnostics, ?_⟩
  rw [State.withoutDiagnostics_running hd hbelow, State.withoutDiagnostics_current hd hbelow]
  rcases hcases with ⟨hr, rfl⟩ | ⟨i, hi, he⟩
  · exact .inl ⟨hr, rfl⟩
  · exact .inr ⟨i, hi, exec_next_withoutDiagnostics he⟩

end

/-- Settles O46, by induction on the number of steps. -/
theorem diagnosticsTermsChangeNothing : Obligations.DiagnosticsTermsChangeNothing := by
  unfold Obligations.DiagnosticsTermsChangeNothing
  intro n
  induction n with
  | zero =>
    intro s t h _
    obtain rfl := (runs_zero s t).1 h
    exact (runs_zero ..).2 rfl
  | succ n ih =>
    intro s t h hterms
    obtain ⟨u, hu, hrest⟩ := (runs_succ n s t).1 h
    obtain ⟨hd, hbelow⟩ := hterms 0 s n.succ_pos ((runs_zero s s).2 rfl)
    have hrest' := ih u t hrest fun k v hk hv => hterms (k + 1) v (Nat.succ_lt_succ hk) ((runs_succ k s v).2 ⟨u, hu, hv⟩)
    exact (runs_succ ..).2 ⟨u.withoutDiagnostics, step_withoutDiagnostics hd hbelow hu, hrest'⟩

end Sys2Proof.Machine

end

/-! Proofs of the reset and launch statements (70_reset_and_hazards.md): the premises of a launch (R172, R173, R180), the
environment beside a run (R174), and the data flow from a source to a run (R172). -/

section

namespace Sys2Proof.Machine

/-! ### The host's moves on a halted core -/

section

variable {s : State} (h : s.halted = true)
include h

theorem State.hostMove_load (words : List Nat) :
    s.hostMove (.load words) = { s.recordHalt with program := words } := if_pos h

theorem State.hostMove_configure (c : Config) : s.hostMove (.configure c) = { s.recordHalt with config := c } := if_pos h

theorem State.hostMove_connect (input : InputChannel) :
    s.hostMove (.connect input) = { s.recordHalt with input := input } := if_pos h

/-- The core stays halted under the host's moves, and the reset at their end reads only what they have set (R172, R173). -/
theorem State.resetRun_hostMoves (c : Config) (words : List Nat) (input : InputChannel) :
    (((s.hostMove (.load words)).hostMove (.configure c)).hostMove (.connect input)).resetRun = launch c words input := by
  have hload := State.hostMove_halted h (.load words)
  have hconf := State.hostMove_halted hload (.configure c)
  rw [State.hostMove_connect hconf, State.hostMove_configure hload, State.hostMove_load h]
  rfl

end

/-! ### The launch -/

/-- The reset state with a Program, a configuration and an input loaded: what a launch resets, and what it gives (R172). -/
def loadedState (c : Config) (words : List Nat) (input : InputChannel) : State :=
  { State.reset with program := words, config := c, input := input }

theorem launch_of_launched {c : Config} {words : List Nat} {input : InputChannel}
    (h : (loadedState c words input).Launched) : launch c words input = .next (loadedState c words input) :=
  (State.resetRun_eq_next ..).2 ⟨h, rfl⟩

theorem launch_badConfig {c : Config} {words : List Nat} (h : ¬ LegalConfig c words.length) (input : InputChannel) :
    launch c words input = .refused .badConfig :=
  (State.resetRun_eq_refused ..).2 (.inl ⟨h, rfl⟩)

theorem launch_illFormedProgram {c : Config} {words : List Nat} (hl : LegalConfig c words.length)
    (hw : ¬ (wordsFit c words = true ∧ wellFormedProgram (codeOf c words) = true)) (input : InputChannel) :
    launch c words input = .refused .illFormedProgram :=
  (State.resetRun_eq_refused ..).2 (.inr ⟨hl, hw, rfl⟩)

/-- Settles O8: a launch is a reset of the loaded state, which is a reset state already. -/
theorem launchChecksItsPremises : Obligations.LaunchChecksItsPremises := by
  unfold Obligations.LaunchChecksItsPremises
  intro c words input
  refine ⟨fun h hh => State.resetRun_hostMoves hh c words input, fun hl => launch_badConfig hl input,
    fun hl hw => launch_illFormedProgram hl hw input, fun hl hfit hwf => ?_⟩
  have hlaunched : (loadedState c words input).Launched := ⟨hl, hfit, hwf⟩
  have hreset : (loadedState c words input).ResetState := resetState_loaded words c input
  obtain ⟨-, hsize, -⟩ := hl
  exact ⟨_, launch_of_launched hlaunched, rfl, rfl, rfl, rfl, rfl, rfl, fun _ => rfl, rfl, rfl, hreset, hlaunched,
    hreset.wf hfit, hreset.faultWf hsize⟩

/-! ### From a source to a run -/

/-- The program store of encoded instructions decodes to them, if their immediates are in range (R64). -/
theorem codeOf_map_encode {c : Config} {code : List Instr} (h : ∀ i ∈ code, i.wf c.immBits = true) :
    codeOf c (code.map encode) = code := by
  rw [codeOf, List.map_map]
  exact (List.map_congr_left fun i hi => decode_encode (h i hi)).trans code.map_id

theorem wordsFit_map_encode {c : Config} {code : List Instr} (h : ∀ i ∈ code, i.wf c.immBits = true) :
    wordsFit c (code.map encode) = true := by
  simp only [wordsFit, List.all_map, List.all_eq_true]
  exact fun i hi => decide_eq_true (encode_lt (h i hi))

theorem bootSource_error {c : Config} {src : List Byte} {e : TranslationError}
    (h : translateSource c.immBits src = .error e) (input : InputChannel) : bootSource c src input = .error e := by
  rw [bootSource, h]

theorem bootSource_ok {c : Config} {src : List Byte} {code : List Instr} (h : translateSource c.immBits src = .ok code)
    (input : InputChannel) : bootSource c src input = .ok (launch c (code.map encode) input) := by
  rw [bootSource, h]

/-- The store of a translated Program meets the premises of a launch in every legal configuration (R83, R180). -/
theorem launched_of_translateSource {c : Config} {src : List Byte} {code : List Instr}
    (h : translateSource c.immBits src = .ok code) (hl : LegalConfig c code.length) (input : InputChannel) :
    (loadedState c (code.map encode) input).Launched := by
  obtain ⟨hwf, himm⟩ := translatedProgramsAreWellFormed c.immBits src code h
  have hlength : (loadedState c (code.map encode) input).progLen = code.length := List.length_map ..
  have hcode : codeOf c (code.map encode) = code := codeOf_map_encode himm
  exact ⟨hlength ▸ hl, wordsFit_map_encode himm, hcode.symm ▸ hwf⟩

/-- Settles O54: a translated Program is launched, and a launched state does not get stuck. -/
theorem translatedSourcesRun : Obligations.TranslatedSourcesRun := by
  unfold Obligations.TranslatedSourcesRun
  refine fun c src input => ⟨fun e h => bootSource_error h input, fun code h hl => ?_⟩
  have hlaunched := launched_of_translateSource h hl input
  obtain ⟨-, himm⟩ := translatedProgramsAreWellFormed c.immBits src code h
  refine ⟨_, (bootSource_ok h input).trans (congrArg _ (launch_of_launched hlaunched)), codeOf_map_encode himm,
    hlaunched, fun hcheck n => ?_⟩
  obtain ⟨t, hrun, -⟩ := launchedProgramsNeverGetStuck _ n hlaunched hcheck
  exact ⟨t, hrun⟩

/-! ### The environment -/

/-- The channel `ch'` offers what `ch` does and more values behind, and after exhaustion it is `ch` itself (R122, R174). -/
def InputChannel.ExtendedTo (ch ch' : InputChannel) : Prop :=
  ∃ more, ch'.pending = ch.pending ++ more ∧ (ch.exhausted = true → ch' = ch)

theorem InputChannel.ExtendedTo.refl (ch : InputChannel) : ch.ExtendedTo ch := ⟨[], by simp, fun _ => rfl⟩

theorem InputChannel.ExtendedTo.trans {ch ch' ch'' : InputChannel} (h : ch.ExtendedTo ch') (h' : ch'.ExtendedTo ch'') :
    ch.ExtendedTo ch'' := by
  obtain ⟨more, hmore, hex⟩ := h
  obtain ⟨more', hmore', hex'⟩ := h'
  refine ⟨more ++ more', by rw [hmore', hmore, List.append_assoc], fun hch => ?_⟩
  obtain rfl := hex hch
  exact hex' hch

theorem InputChannel.ExtendedTo.exhausted {ch ch' : InputChannel} (h : ch.ExtendedTo ch') (hch : ch.exhausted = true) :
    ch'.exhausted = true := by
  obtain ⟨-, -, hex⟩ := h
  rw [hex hch, hch]

theorem State.answerMove_extends (s : State) (m : InputMove) : s.input.ExtendedTo (s.answerMove m).input := by
  cases m with
  | offer v =>
    rcases s.offerInput_eq v with h | ⟨hopen, h⟩
    · rw [State.answerMove, h]
      exact .refl _
    · rw [State.answerMove, h]
      exact ⟨[v], rfl, fun hch => by simp [hopen] at hch⟩
  | endOfInput => exact ⟨[], (List.append_nil _).symm, fun hch => by rw [State.answerMove, State.endInput_input, ← hch]⟩

theorem State.answers_extends (s : State) (moves : List InputMove) : s.input.ExtendedTo (s.answers moves).input := by
  induction moves generalizing s with
  | nil => exact .refl _
  | cons m moves ih => exact (s.answerMove_extends m).trans (ih (s.answerMove m))

theorem State.answers_sameStore (s : State) (moves : List InputMove) : SameStore s (s.answers moves) :=
  ⟨s.answers_program moves, s.answers_config moves⟩

theorem State.answers_sameCore (s : State) (moves : List InputMove) : SameCore s (s.answers moves) :=
  ⟨s.answers_tape moves, s.answers_ip moves, s.answers_dp moves, s.answers_stepCount moves⟩

/-! ### Exhaustion is permanent -/

/-- An Input leaves the exhaustion flag as it is, and no other instruction has the channel (R122). -/
theorem Effect.exhausted_eq {s u : State} {i : Instr} (h : Effect s i u) : u.input.exhausted = s.input.exhausted := by
  cases h with
  | input imm r ch hd hr =>
    rw [State.receive_input, State.answered_input]
    exact InputChannel.request_exhausted hr
  | _ => rfl

theorem step_exhausted {s t : State} (h : step s = .next t) : t.input.exhausted = s.input.exhausted := by
  rcases step_next_cases h with rfl | ⟨i, u, -, hu, rfl⟩ | ⟨imm, -, -, rfl⟩
  · rfl
  · exact hu.exhausted_eq
  · rfl

/-! ### Runs under an environment -/

theorem SameStore.trans {s u t : State} (hsu : SameStore s u) (hut : SameStore u t) : SameStore s t := by
  obtain ⟨hprog, hconf⟩ := hsu
  obtain ⟨hprog', hconf'⟩ := hut
  exact ⟨hprog'.trans hprog, hconf'.trans hconf⟩

section

variable {env : Nat → List InputMove} {trace : Nat → State} (hrun : RunUnder env trace)
include hrun

/-- The program store and the configuration are constant (R25, R28, R174). -/
theorem RunUnder.sameStore (n : Nat) : SameStore (trace 0) (trace n) :=
  runUnder_invariant (P := SameStore (trace 0)) (fun s moves hs => hs.trans (s.answers_sameStore moves))
    (fun _ _ hs hstep => hs.trans (step_sameStore hstep)) hrun ⟨rfl, rfl⟩ n

theorem RunUnder.hostKeepsDuties : HostKeepsDuties env trace :=
  ⟨hrun.sameStore, fun n => ⟨(trace n).answers_sameStore (env n), (trace n).answers_sameCore (env n)⟩⟩

theorem RunUnder.exhaustionPermanent : ExhaustionPermanent trace := by
  intro m n hmn hex
  induction n, hmn using Nat.le_induction with
  | base => exact hex
  | succ n _ ih =>
    rw [step_exhausted (hrun n)]
    exact ((trace n).answers_extends (env n)).exhausted ih

end

/-- An Output that answers a next state had its cell on the tape, so it has emitted it and counted (R30, R123). -/
theorem sinkAccepts (trace : Nat → State) : SinkAccepts trace := by
  intro n imm t h
  obtain ⟨hd, -⟩ := exec_next_accessesTape h rfl
  obtain rfl := Host.Outcome.next.inj ((exec_of_effect (.output imm hd)).symm.trans h)
  exact ⟨rfl, rfl⟩

/-- Settles O59: the moves extend the input channel, and neither they nor a step touch what a launch has checked. -/
theorem environmentKeepsItsPremises : Obligations.EnvironmentKeepsItsPremises := by
  unfold Obligations.EnvironmentKeepsItsPremises
  refine ⟨fun s moves => ?_, fun env trace hrun => ?_⟩
  · obtain ⟨channel, h⟩ := s.answers_eq moves
    obtain ⟨more, hpending, hex⟩ := s.answers_extends moves
    rw [h] at hpending hex
    exact ⟨channel, more, h, hpending, hex⟩
  · exact ⟨hrun.hostKeepsDuties, sinkAccepts trace, hrun.exhaustionPermanent,
      fun hs n => hs.of_sameStore (hrun.sameStore n)⟩

end Sys2Proof.Machine

end
